-- ==== Sys2Proof/Word.lean ====
section
/-! DEFINITION. The widths of CHIP-8's quantities (spec R9, R71). Every quantity is unsigned (R11). -/

namespace Sys2Proof

/-- A memory byte, a general register, a timer, the immediate `kk` (R9, R71). -/
abbrev Byte := BitVec 8

/-- An instruction word, `I`, `PC`, a stack slot (R24, R26, R29, R70). -/
abbrev Word := BitVec 16

/-- A register number `x`, `y`, the sprite height `n`, a logical key (R8, R71). -/
abbrev Nibble := BitVec 4

/-- The immediate address `nnn` (R71). -/
abbrev Addr := BitVec 12

end Sys2Proof
end

