-- ==== Sys2Proof/Syntax.lean ====
section
/-! DEFINITION. The instruction set as syntax: one constructor per row of the opcode map (spec R76). -/

namespace Sys2Proof

/-- One constructor per row of R76, in the table's order; the fields are those its pattern names (R71). -/
inductive Instr where
  /-- 00E0 `CLS` (R150) -/
  | cls
  /-- 00EE `RET` (R100) -/
  | ret
  /-- 1nnn `JP nnn` (R101) -/
  | jp (nnn : Addr)
  /-- 2nnn `CALL nnn` (R102) -/
  | call (nnn : Addr)
  /-- 3xkk `SE Vx, kk` (R104) -/
  | seImm (x : Nibble) (kk : Byte)
  /-- 4xkk `SNE Vx, kk` (R105) -/
  | sneImm (x : Nibble) (kk : Byte)
  /-- 5xy0 `SE Vx, Vy` (R106) -/
  | seReg (x y : Nibble)
  /-- 6xkk `LD Vx, kk` (R121) -/
  | ldImm (x : Nibble) (kk : Byte)
  /-- 7xkk `ADD Vx, kk` (R122) -/
  | addImm (x : Nibble) (kk : Byte)
  /-- 8xy0 `LD Vx, Vy` (R123) -/
  | ldReg (x y : Nibble)
  /-- 8xy1 `OR Vx, Vy` (R124) -/
  | orReg (x y : Nibble)
  /-- 8xy2 `AND Vx, Vy` (R125) -/
  | andReg (x y : Nibble)
  /-- 8xy3 `XOR Vx, Vy` (R126) -/
  | xorReg (x y : Nibble)
  /-- 8xy4 `ADD Vx, Vy` (R127) -/
  | addReg (x y : Nibble)
  /-- 8xy5 `SUB Vx, Vy` (R128) -/
  | sub (x y : Nibble)
  /-- 8xy6 `SHR Vx` (R129); `y` is part of the word and ignored by the hardware -/
  | shr (x y : Nibble)
  /-- 8xy7 `SUBN Vx, Vy` (R130) -/
  | subn (x y : Nibble)
  /-- 8xyE `SHL Vx` (R131); `y` is part of the word and ignored by the hardware -/
  | shl (x y : Nibble)
  /-- 9xy0 `SNE Vx, Vy` (R107) -/
  | sneReg (x y : Nibble)
  /-- Annn `LD I, nnn` (R140) -/
  | ldI (nnn : Addr)
  /-- Bnnn `JP V0, nnn` (R103) -/
  | jpV0 (nnn : Addr)
  /-- Cxkk `RND Vx, kk` (R132) -/
  | rnd (x : Nibble) (kk : Byte)
  /-- Dxyn `DRW Vx, Vy, n` (R151) -/
  | drw (x y n : Nibble)
  /-- Ex9E `SKP Vx` (R160) -/
  | skp (x : Nibble)
  /-- ExA1 `SKNP Vx` (R161) -/
  | sknp (x : Nibble)
  /-- Fx07 `LD Vx, DT` (R163) -/
  | ldVxDt (x : Nibble)
  /-- Fx0A `LD Vx, K` (R162) -/
  | ldVxK (x : Nibble)
  /-- Fx15 `LD DT, Vx` (R164) -/
  | ldDtVx (x : Nibble)
  /-- Fx18 `LD ST, Vx` (R165) -/
  | ldStVx (x : Nibble)
  /-- Fx1E `ADD I, Vx` (R141) -/
  | addI (x : Nibble)
  /-- Fx29 `LD F, Vx` (R142) -/
  | ldF (x : Nibble)
  /-- Fx33 `LD B, Vx` (R143) -/
  | ldB (x : Nibble)
  /-- Fx55 `LD [I], Vx` (R144) -/
  | ldMemVx (x : Nibble)
  /-- Fx65 `LD Vx, [I]` (R145) -/
  | ldVxMem (x : Nibble)
  /-- any other word: `UNRECOGNIZED`, a no-op (R109) -/
  | unrecognized (w : Word)
  deriving DecidableEq, Repr

end Sys2Proof
end

