-- ==== Sys2Proof/Decode.lean ====
section
/-! DEFINITION. The decoder, total on words and on byte strings (spec R70, R71, R77, R78), and after it the encoder,
written from the same patterns (R75, R76). -/

namespace Sys2Proof

/-! ## The fields of a word (R71) -/

/-- `op` = bits 15:12. -/
def fieldOp (w : Word) : Nibble := w.extractLsb' 12 4
/-- `x` = bits 11:8. -/
def fieldX (w : Word) : Nibble := w.extractLsb' 8 4
/-- `y` = bits 7:4. -/
def fieldY (w : Word) : Nibble := w.extractLsb' 4 4
/-- `n` = bits 3:0. -/
def fieldN (w : Word) : Nibble := w.extractLsb' 0 4
/-- `kk` = bits 7:0. -/
def fieldKk (w : Word) : Byte := w.extractLsb' 0 8
/-- `nnn` = bits 11:0. -/
def fieldNnn (w : Word) : Addr := w.extractLsb' 0 12

/-! ## The decoder -/

/-- `op` = 0: the whole word must be 0x00E0 or 0x00EE (R77). -/
def decodeOp0 (w : Word) : Instr :=
  if w = 0x00E0 then .cls
  else if w = 0x00EE then .ret
  else .unrecognized w

/-- `op` = 8: the minor digit `n` selects; 8 to D and F are unrecognized (R76, R78). -/
def decodeOp8 (w : Word) : Instr :=
  if fieldN w = 0x0 then .ldReg (fieldX w) (fieldY w)
  else if fieldN w = 0x1 then .orReg (fieldX w) (fieldY w)
  else if fieldN w = 0x2 then .andReg (fieldX w) (fieldY w)
  else if fieldN w = 0x3 then .xorReg (fieldX w) (fieldY w)
  else if fieldN w = 0x4 then .addReg (fieldX w) (fieldY w)
  else if fieldN w = 0x5 then .sub (fieldX w) (fieldY w)
  else if fieldN w = 0x6 then .shr (fieldX w) (fieldY w)
  else if fieldN w = 0x7 then .subn (fieldX w) (fieldY w)
  else if fieldN w = 0xE then .shl (fieldX w) (fieldY w)
  else .unrecognized w

/-- `op` = E: `kk` selects (R76, R78). -/
def decodeOpE (w : Word) : Instr :=
  if fieldKk w = 0x9E then .skp (fieldX w)
  else if fieldKk w = 0xA1 then .sknp (fieldX w)
  else .unrecognized w

/-- `op` = F: `kk` selects (R76, R78). -/
def decodeOpF (w : Word) : Instr :=
  if fieldKk w = 0x07 then .ldVxDt (fieldX w)
  else if fieldKk w = 0x0A then .ldVxK (fieldX w)
  else if fieldKk w = 0x15 then .ldDtVx (fieldX w)
  else if fieldKk w = 0x18 then .ldStVx (fieldX w)
  else if fieldKk w = 0x1E then .addI (fieldX w)
  else if fieldKk w = 0x29 then .ldF (fieldX w)
  else if fieldKk w = 0x33 then .ldB (fieldX w)
  else if fieldKk w = 0x55 then .ldMemVx (fieldX w)
  else if fieldKk w = 0x65 then .ldVxMem (fieldX w)
  else .unrecognized w

/-- The instruction a word is (R77): every one of the 65536 words decodes, none is illegal (R78). -/
def decodeWord (w : Word) : Instr :=
  if fieldOp w = 0x0 then decodeOp0 w
  else if fieldOp w = 0x1 then .jp (fieldNnn w)
  else if fieldOp w = 0x2 then .call (fieldNnn w)
  else if fieldOp w = 0x3 then .seImm (fieldX w) (fieldKk w)
  else if fieldOp w = 0x4 then .sneImm (fieldX w) (fieldKk w)
  else if fieldOp w = 0x5 then
    if fieldN w = 0x0 then .seReg (fieldX w) (fieldY w) else .unrecognized w
  else if fieldOp w = 0x6 then .ldImm (fieldX w) (fieldKk w)
  else if fieldOp w = 0x7 then .addImm (fieldX w) (fieldKk w)
  else if fieldOp w = 0x8 then decodeOp8 w
  else if fieldOp w = 0x9 then
    if fieldN w = 0x0 then .sneReg (fieldX w) (fieldY w) else .unrecognized w
  else if fieldOp w = 0xA then .ldI (fieldNnn w)
  else if fieldOp w = 0xB then .jpV0 (fieldNnn w)
  else if fieldOp w = 0xC then .rnd (fieldX w) (fieldKk w)
  else if fieldOp w = 0xD then .drw (fieldX w) (fieldY w) (fieldN w)
  else if fieldOp w = 0xE then decodeOpE w
  else decodeOpF w

/-- The big-endian word of two bytes: the byte at the lower address is the high byte (R53). -/
def wordOfBytes (hi lo : Byte) : Word := hi ++ lo

/-- Why a byte string is no instruction. -/
inductive DecodeError where
  /-- Fewer than two bytes: no instruction word is there (R70). Raised by `decode`; safe: log 28. -/
  | truncated
  deriving DecidableEq, Repr

/-- The first instruction of a byte string, with the bytes after it (R70). -/
def decode : List Byte → Except DecodeError (Instr × List Byte)
  | hi :: lo :: rest => .ok (decodeWord (wordOfBytes hi lo), rest)
  | _ => .error .truncated

/-- The two bytes of a word as memory holds them, the high byte at the lower address (R53, R70). -/
def bytesOfWord (w : Word) : List Byte := [w.extractLsb' 8 8, w.extractLsb' 0 8]

/-- The word whose low `nbits` bits are those of `w`, the bits above them zero. -/
def tableWord (nbits w : Nat) : Word := BitVec.ofNat 16 (w % 2 ^ nbits)

/-- The instruction the decoder reads from the bits `w`, numbered as spec/opcode_table.json numbers them. -/
def decodeTableWord (nbits w : Nat) : Option Instr :=
  match decode (bytesOfWord (tableWord nbits w)) with
  | .ok (i, _) => some i
  | .error _ => none

/-! ## The encoder (R75, R76) -/

/-- Format F_NNN. -/
def formNnn (op : Nibble) (nnn : Addr) : Word := op ++ nnn
/-- Format F_XKK; with a fixed `kk` also format F_X. -/
def formXkk (op x : Nibble) (kk : Byte) : Word := op ++ x ++ kk
/-- Format F_XYN; with a fixed `n` also format F_XY. -/
def formXyn (op x y n : Nibble) : Word := op ++ x ++ y ++ n

/-- The word of an instruction. -/
def encode : Instr → Word
  | .cls => 0x00E0
  | .ret => 0x00EE
  | .jp nnn => formNnn 0x1 nnn
  | .call nnn => formNnn 0x2 nnn
  | .seImm x kk => formXkk 0x3 x kk
  | .sneImm x kk => formXkk 0x4 x kk
  | .seReg x y => formXyn 0x5 x y 0x0
  | .ldImm x kk => formXkk 0x6 x kk
  | .addImm x kk => formXkk 0x7 x kk
  | .ldReg x y => formXyn 0x8 x y 0x0
  | .orReg x y => formXyn 0x8 x y 0x1
  | .andReg x y => formXyn 0x8 x y 0x2
  | .xorReg x y => formXyn 0x8 x y 0x3
  | .addReg x y => formXyn 0x8 x y 0x4
  | .sub x y => formXyn 0x8 x y 0x5
  | .shr x y => formXyn 0x8 x y 0x6
  | .subn x y => formXyn 0x8 x y 0x7
  | .shl x y => formXyn 0x8 x y 0xE
  | .sneReg x y => formXyn 0x9 x y 0x0
  | .ldI nnn => formNnn 0xA nnn
  | .jpV0 nnn => formNnn 0xB nnn
  | .rnd x kk => formXkk 0xC x kk
  | .drw x y n => formXyn 0xD x y n
  | .skp x => formXkk 0xE x 0x9E
  | .sknp x => formXkk 0xE x 0xA1
  | .ldVxDt x => formXkk 0xF x 0x07
  | .ldVxK x => formXkk 0xF x 0x0A
  | .ldDtVx x => formXkk 0xF x 0x15
  | .ldStVx x => formXkk 0xF x 0x18
  | .addI x => formXkk 0xF x 0x1E
  | .ldF x => formXkk 0xF x 0x29
  | .ldB x => formXkk 0xF x 0x33
  | .ldMemVx x => formXkk 0xF x 0x55
  | .ldVxMem x => formXkk 0xF x 0x65
  | .unrecognized w => w

/-- The bytes of an instruction as memory holds them. -/
def encodeBytes (i : Instr) : List Byte := bytesOfWord (encode i)

end Sys2Proof
end

