-- ==== Sys2Proof/Config.lean ====
section
/-! DEFINITION. What is fixed for the machine (spec R9), the two open parameters of reset with the spec's defaults
(R10), and the free values: the environment's inputs, about which nothing can be proved. -/

namespace Sys2Proof

/-- The number of bytes of memory (R9 `MEM_SIZE`). -/
def Config.memSize : Nat := 4096

/-- Where the program image goes and where execution begins (R9 `PROG_BASE`, R39). -/
def Config.progBase : Nat := 0x200

/-- The default of the parameter `FONT` (R10): the table G1 of 93_implementation_defined.md.
PRESUMED (general knowledge, marked so by the spec), unsafe: log 10. -/
def Config.font : Vector Byte 80 :=
  #v[0xF0, 0x90, 0x90, 0x90, 0xF0,
     0x20, 0x60, 0x20, 0x20, 0x70,
     0xF0, 0x10, 0xF0, 0x80, 0xF0,
     0xF0, 0x10, 0xF0, 0x10, 0xF0,
     0x90, 0x90, 0xF0, 0x10, 0x10,
     0xF0, 0x80, 0xF0, 0x10, 0xF0,
     0xF0, 0x80, 0xF0, 0x90, 0xF0,
     0xF0, 0x10, 0x20, 0x40, 0x40,
     0xF0, 0x90, 0xF0, 0x90, 0xF0,
     0xF0, 0x90, 0xF0, 0x10, 0xF0,
     0xF0, 0x90, 0xF0, 0x90, 0x90,
     0xE0, 0x90, 0xE0, 0x90, 0xE0,
     0xF0, 0x80, 0x80, 0x80, 0xF0,
     0xE0, 0x90, 0x90, 0x90, 0xE0,
     0xF0, 0x80, 0xF0, 0x80, 0xF0,
     0xF0, 0x80, 0xF0, 0x80, 0x80]

/-- The default of the parameter `MEM_FILL` (R10, D5). DESIGN CHOICE, unsafe: log 9. -/
def Config.memFill : Byte := 0x00

/-- Free value: the `key` input of the `n`-th Step event the model draws itself (R7, R8, U18). Log 3, safe. -/
opaque Config.key : Nat → Option Nibble

/-- Free value: the `rnd` input of the `n`-th Step event the model draws itself (R10, R132, D14). Log 3, safe. -/
opaque Config.rnd : Nat → Byte

/-- Free value: how many Tick events fall before the `n`-th Step event the model draws itself (R6, U17). Log 3, safe. -/
opaque Config.ticks : Nat → Nat

end Sys2Proof
end

