-- ==== Sys2Proof/Machine/State.lean ====
section
/-! DEFINITION. The state of the core as plain data (spec R20), what an event answers (R7, R178), the reasons a step can
end without a next state, and the state right after reset (R39). -/

namespace Sys2Proof.Machine

open Sys2Proof

/-- The core's three faults (R170), the values of the latch `FAULT` beside None (R36, R171). The spec gives taking one an
effect (R174, R175), so the model takes it as a NEXT state by `raise`; no step of the model ends in `Outcome.fault` (log 5). -/
inductive Fault where
  /-- Raised by the fetch, Dxyn, Fx33, Fx55 and Fx65 for an address above 4095 (R170). Safe: as the spec describes it. -/
  | addressOutOfRange
  /-- Raised by 2nnn with 16 entries held (R30, R170). Safe: as the spec describes it. -/
  | stackOverflow
  /-- Raised by 00EE with an empty stack (R31, R170). Safe: as the spec describes it. -/
  | stackUnderflow
  deriving DecidableEq, Repr

/-- Why a step has no meaning. -/
inductive Refusal where
  /-- Raised by a refused arm of `exec` for an instruction without a meaning yet; no arm is refused now. Safe: the run stops. -/
  | notModelled (mnemonic : String)
  /-- Raised by the `Reset` event with an image over 3584 bytes: no core state results (R201, D26). Safe: the run stops. -/
  | imageTooLarge
  deriving DecidableEq, Repr

/-- The status of a step that does not fault (R178). `halted` is the driver's and is never output. -/
inductive Status where
  | continue
  | needsRedraw
  | awaitingKey
  | halted
  deriving DecidableEq, Repr

/-- An event at the core's interface (R7); events are atomic and never overlap (R6). -/
inductive Event where
  /-- One instruction, with the driver's key (or none) and a random byte. -/
  | step (key : Option Nibble) (rnd : Byte)
  /-- One count of both timers (R183). -/
  | tick
  /-- The load of a program image (R200). -/
  | reset (image : List Byte)
  /-- The renderer's read of one pixel (R66). -/
  | fbRead (x : Fin 64) (y : Fin 32)
  deriving DecidableEq, Repr

/-- What an event answers (R7). -/
inductive Output where
  /-- A Reset that was accepted. -/
  | loaded
  /-- A Step that did not fault. -/
  | status (s : Status)
  /-- A Step that faulted. -/
  | fault (f : Fault)
  /-- A Tick's `sound_active` (R183, R185). -/
  | sound (active : Bool)
  /-- An FbRead's pixel. -/
  | pixel (lit : Bool)
  deriving DecidableEq, Repr

/-- Memory as the cells that differ from what an unlisted address reads as, addresses strictly rising. -/
abbrev Memory := List Host.Cell

/-- `FB[x][y]`: 64 columns of 32 one-bit pixels (R34). -/
abbrev Framebuffer := Vector (Vector Bool 32) 64

/-- The state of the core (R20), then the model's own carriers of the interface (log 1 to 4, 33). -/
structure State where
  /-- `V[0..15]` (R21) -/
  v : Vector Byte 16
  /-- `I` (R24) -/
  i : Word
  /-- `PC` (R26) -/
  pc : Word
  /-- `STACK[0..15]` (R29) -/
  stack : Vector Word 16
  /-- `SP`, the number of entries held (R29) -/
  sp : Fin 17
  /-- `DT` (R33) -/
  dt : Byte
  /-- `ST` (R33) -/
  st : Byte
  /-- `FB` (R34) -/
  fb : Framebuffer
  /-- `MEM` (R35) -/
  mem : Memory
  /-- `FAULT` (R36) -/
  fault : Option Fault
  /-- The model's own: the `key` input of the Step event in progress (R7, R38; log 1). -/
  key : Option Nibble
  /-- The model's own: the `rnd` input of the Step event in progress (R7, R38; log 1). -/
  rnd : Byte
  /-- The model's own: what the latest event answered (R7; log 4). -/
  output : Output
  /-- The model's own: the events the driver has fixed already, the next one first (R6; log 2). -/
  pending : List Event
  /-- The model's own: how many Step events have been drawn from the free values (log 3). -/
  draws : Nat
  /-- The model's own: the `sound_active` that each Tick has answered, one entry a Tick, the first Tick first (R185; log 33). -/
  sounds : List Bool
  deriving DecidableEq, Repr

/-- The machine right after the reset with an empty image (R39, R203); the font and the fill are what unlisted memory
reads as. The values are R39's; those of the stack slots and of the model's own fields are DESIGN CHOICE (log 1 to 4, 8, 33). -/
def State.reset : State where
  v := Vector.replicate 16 0x00
  i := 0x0000
  pc := 0x0200
  stack := Vector.replicate 16 0x0000
  sp := 0
  dt := 0x00
  st := 0x00
  fb := Vector.replicate 64 (Vector.replicate 32 false)
  mem := []
  fault := none
  key := none
  rnd := 0x00
  output := .loaded
  pending := []
  draws := 0
  sounds := []

end Sys2Proof.Machine
end

