-- ==== Sys2Proof/Machine/Ops.lean ====
section
/-! DEFINITION. The named operations over the state: memory (spec R50 to R60), the registers (R21), the program counter
(R72 to R74), the call stack (R30, R31), the framebuffer and the collision detector (R34, R151 to R155), the count of the
timers (R183), how a step completes (R178) and how it takes a fault (R174). -/

namespace Sys2Proof.Machine

open Sys2Proof

/-- What `exec` and every meaning answer. -/
abbrev Result := Host.Outcome State Fault Refusal

/-! ## Memory -/

/-- The byte at address `a` after a reset with these parameters (R39, R51, R200): the font at 0x000..0x04F, the image from
0x200 on, the fill everywhere else. -/
def resetByte (font : Vector Byte 80) (fill : Byte) (image : List Byte) (a : Nat) : Byte :=
  if h : a < 80 then font[a]
  else if Config.progBase ≤ a then image.getD (a - Config.progBase) fill
  else fill

/-- What an address the memory does not list reads as: its byte after a reset with the default parameters and an empty
image (R10, R51; log 9, 10). -/
def unlistedByte (a : Nat) : Byte := resetByte Config.font Config.memFill [] a

/-- The byte at address `a`: the listed one, else what an unlisted address reads as. -/
def Memory.byteAt : Memory → Nat → Byte
  | [], a => unlistedByte a
  | c :: m, a => if c.1 = a then c.2 else Memory.byteAt m a

/-- The canonical form: addresses below 4096 and strictly rising, no cell equal to what an unlisted address reads as. -/
abbrev Memory.wf (m : Memory) : Prop :=
  m.Pairwise (fun c d => c.1 < d.1) ∧ ∀ c ∈ m, c.1 < Config.memSize ∧ c.2 ≠ unlistedByte c.1

/-- The memory without any cell at address `a`. -/
def Memory.remove (m : Memory) (a : Nat) : Memory := m.filter fun c => c.1 ≠ a

/-- The memory with the cell `(a, b)` placed before the first cell of a larger address. -/
def Memory.place (a : Nat) (b : Byte) : Memory → Memory
  | [] => [(a, b)]
  | c :: m => if a < c.1 then (a, b) :: c :: m else c :: Memory.place a b m

/-- The write of one byte, keeping the canonical form. -/
def Memory.setByte (m : Memory) (a : Nat) (b : Byte) : Memory :=
  if b = unlistedByte a then m.remove a else (m.remove a).place a b

/-- The writes of consecutive bytes from address `a` on, in order. -/
def Memory.setBytes (m : Memory) (a : Nat) : List Byte → Memory
  | [] => m
  | b :: bs => Memory.setBytes (m.setByte a b) (a + 1) bs

/-- The memory whose byte at each address `a` of 0..4095 is `f a`. -/
def Memory.ofFn (f : Nat → Byte) : Memory :=
  (List.range Config.memSize).filterMap fun a => if f a = unlistedByte a then none else some (a, f a)

/-- Whether `n` consecutive bytes from address `a` reach above address 4095 (R55, R57, R59, R60); none do when `n` = 0. -/
def outOfRange (a n : Nat) : Bool := decide (n > 0 ∧ a + n - 1 > 4095)

/-- `MemRead` of `n` consecutive single bytes, the whole range checked first (R55, R58, R60). -/
def Memory.load (m : Memory) (a n : Nat) : Except Fault (List Byte) :=
  if outOfRange a n then .error .addressOutOfRange else .ok ((List.range n).map fun k => m.byteAt (a + k))

/-- `MemWrite` of consecutive single bytes, the whole range checked first (R57, R58, R60). -/
def Memory.store (m : Memory) (a : Nat) (bs : List Byte) : Except Fault Memory :=
  if outOfRange a bs.length then .error .addressOutOfRange else .ok (m.setBytes a bs)

/-- `MemRead(addr, 2)`, the instruction fetch: big-endian, no alignment rule (R53, R54, R56). -/
def Memory.fetch (m : Memory) (a : Nat) : Except Fault Word :=
  if a + 1 > 4095 then .error .addressOutOfRange else .ok (wordOfBytes (m.byteAt a) (m.byteAt (a + 1)))

/-! ## General registers -/

/-- The number of VF, register 15 (R22). -/
def vf : Nibble := 0xF

/-- The read of `V[x]` (R21). -/
def State.reg (s : State) (x : Nibble) : Byte := s.v[x.toNat]'x.isLt

/-- The write of `V[x]` (R21). -/
def State.setReg (s : State) (x : Nibble) (b : Byte) : State := { s with v := s.v.set x.toNat b x.isLt }

/-- The result to `V[x]` and then the flag to VF, the last write of the instruction (R22, R120). -/
def State.setRegFlag (s : State) (x : Nibble) (b flag : Byte) : State := (s.setReg x b).setReg vf flag

/-- The writes of consecutive registers from `V[k]` on, in order (R145). -/
def State.setRegs (s : State) (k : Nat) : List Byte → State
  | [] => s
  | b :: bs => State.setRegs (s.setReg (BitVec.ofNat 4 k) b) (k + 1) bs

/-! ## Program counter -/

/-- The default advance past the instruction's two bytes (R72). -/
def State.advance (s : State) : State := { s with pc := s.pc + 2 }

/-- `PC + 4` when the condition holds, else `PC + 2` (R74). -/
def State.skipIf (s : State) (taken : Bool) : State := { s with pc := s.pc + if taken then 4 else 2 }

/-! ## Call stack -/

/-- `Push(v)` (R30). -/
def push (v : Word) (s : State) : Except Fault State :=
  if h : s.sp.val < 16 then
    .ok { s with stack := s.stack.set s.sp.val v h, sp := ⟨s.sp.val + 1, Nat.succ_lt_succ h⟩ }
  else .error .stackOverflow

/-- `Pop()` (R31): the slot keeps its value. -/
def pop (s : State) : Except Fault (Word × State) :=
  if h : 0 < s.sp.val then
    .ok (s.stack[s.sp.val - 1], { s with sp := ⟨s.sp.val - 1, by omega⟩ })
  else .error .stackUnderflow

/-! ## Framebuffer and collision detector -/

/-- A pixel's place: column, row (R34). -/
abbrev Place := Fin 64 × Fin 32

/-- The pixel `FB[x][y]` (R34). -/
def Framebuffer.lit (fb : Framebuffer) (p : Place) : Bool := fb[p.1][p.2]

/-- `FB[x][y] <- FB[x][y] XOR 1` (R151). -/
def Framebuffer.flip (fb : Framebuffer) (p : Place) : Framebuffer :=
  fb.set p.1 (fb[p.1].set p.2 !(fb.lit p))

/-- The framebuffer with every pixel 0 (R150). -/
def Framebuffer.clear : Framebuffer := Vector.replicate 64 (Vector.replicate 32 false)

/-- Column `c` of row `r` of a sprite drawn at `(vx, vy)`, each coordinate reduced separately (R151, R154). -/
def spritePlace (vx vy : Byte) (r c : Nat) : Place :=
  (⟨(vx.toNat + c) % 64, Nat.mod_lt _ (by decide)⟩, ⟨(vy.toNat + r) % 32, Nat.mod_lt _ (by decide)⟩)

/-- Whether column `c` of the sprite row `b` is 1: column 0 is bit 7 (R155, D10; log 17). -/
def spriteBit (b : Byte) (c : Nat) : Bool := b.getLsbD (7 - c)

/-- The places of the 1 bits of the sprite row `r`, in the order R151 visits them. -/
def rowPlaces (vx vy : Byte) (r : Nat) (b : Byte) : List Place :=
  ((List.range 8).filter fun c => spriteBit b c).map fun c => spritePlace vx vy r c

/-- The places of the 1 bits of the sprite rows from row `r` on, in the order R151 visits them. -/
def spritePlaces (vx vy : Byte) (r : Nat) : List Byte → List Place
  | [] => []
  | b :: bs => rowPlaces vx vy r b ++ spritePlaces vx vy (r + 1) bs

/-- The loop body of R151 over the places in order: the collision test on the pixel as it is, then the XOR (R152). -/
def Framebuffer.draw (fb : Framebuffer) (hit : Bool) : List Place → Framebuffer × Bool
  | [] => (fb, hit)
  | p :: ps => Framebuffer.draw (fb.flip p) (hit || fb.lit p) ps

/-! ## Timers -/

/-- A timer after `n` ticks: it counts down to 0 and stops (R33, R183). A timer at 0 stays there whatever `n` is. -/
def countDown (n : Nat) (t : Byte) : Byte := if t = 0 then 0 else BitVec.ofNat 8 (t.toNat - n)

/-- `sound_active` of each of `n` ticks in a row when the sound timer holds `st` before the first (R183, R185). -/
def tickAnswers (n : Nat) (st : Byte) : List Bool := (List.range n).map fun k => decide (k < st.toNat)

/-- The state after `n` ticks: both timers counted down, the answer of each tick recorded, nothing else changed (R183, R185). -/
def State.afterTicks (s : State) (n : Nat) : State :=
  { s with dt := countDown n s.dt, st := countDown n s.st, sounds := s.sounds ++ tickAnswers n s.st }

/-! ## How an event ends -/

/-- The event's answer. -/
def State.answer (s : State) (o : Output) : State := { s with output := o }

/-- A step that does not fault (R178). -/
def complete (st : Status) (s : State) : Result := .next (s.answer (.status st))

/-- Taking a fault (R174): `FAULT <- f`, the step answers the fault, nothing else changes, and control goes nowhere. There
is no return from it (R176); only Reset clears the latch (R175). -/
def raise (f : Fault) (s : State) : Result := .next { s with fault := some f, output := .fault f }

/-- The step from `s` completes with the state an operation gave, or takes the fault the operation raised, from `s`
itself: a faulting instruction has no partial effect (R60, R174). -/
def finish (st : Status) (s : State) : Except Fault State → Result
  | .ok t => complete st t
  | .error f => raise f s

end Sys2Proof.Machine
end

