-- ==== Sys2Proof/Machine/Operands.lean ====
section
/-! DEFINITION. The operand forms of the instruction set (spec R76 fifth column, R80, R146): the registers `Vx` and the
immediates `kk`, `n` stand as they are; here are the forms that compute something. Nothing is sign-extended or scaled. -/

namespace Sys2Proof.Machine

open Sys2Proof

/-- `nnn`, zero-extended to 16 bits (R80). -/
def absolute (nnn : Addr) : Word := nnn.setWidth 16

/-- `nnn + V[0]`, the target of Bnnn (R80, R103); the sum is at most 0x10FE, so 16 bits hold it. -/
def State.offsetTarget (s : State) (nnn : Addr) : Word := absolute nnn + (s.reg 0).setWidth 16

/-- `[I]`: the effective address of byte `k` of a data access, a natural number that never wraps (R59, R146). -/
def State.dataAddr (s : State) (k : Nat) : Nat := s.i.toNat + k

/-- `V[0..x]`, the registers Fx55 stores, in order (R144). -/
def State.regsTo (s : State) (x : Nibble) : List Byte :=
  (List.range (x.toNat + 1)).map fun k => s.reg (BitVec.ofNat 4 k)

/-- `B`: the hundreds, tens and units of a byte, one digit a byte (R143). -/
def decimalDigits (b : Byte) : List Byte :=
  [BitVec.ofNat 8 (b.toNat / 100), BitVec.ofNat 8 (b.toNat / 10 % 10), BitVec.ofNat 8 (b.toNat % 10)]

/-- `F`: the address `5 * V[x]` with all eight bits of `V[x]` (R142, C3, D9; log 16). -/
def glyphAddr (b : Byte) : Word := BitVec.ofNat 16 (b.toNat * 5)

/-- `I + V[x]`, kept to 16 bits and never to 12 (R141, R25, D1, D2; log 20). -/
def State.indexSum (s : State) (x : Nibble) : Word := BitVec.ofNat 16 (s.i.toNat + (s.reg x).toNat)

/-- The value of a logical key as a byte (R160, R162). -/
def keyByte (k : Nibble) : Byte := k.setWidth 8

/-- Whether "pressed key = Vx": some key is supplied and its zero-extended value is all eight bits of `V[x]`
(R166, D11, D12; log 18). -/
def State.keyMatches (s : State) (x : Nibble) : Bool :=
  match s.key with
  | some k => keyByte k == s.reg x
  | none => false

end Sys2Proof.Machine
end

