-- ==== Sys2Proof/Machine/Flags.lean ====
section
/-! DEFINITION. Every flag the spec writes to VF, each computed from the operands as they were before the instruction
(spec R22, R120, R133, R134, R141, R151). -/

namespace Sys2Proof.Machine

open Sys2Proof

/-- A flag as VF holds it: 0 or 1. -/
def flagByte (b : Bool) : Byte := if b then 1 else 0

/-- The carry of an addition (R127, R133). -/
def carryFlag (a b : Byte) : Byte := flagByte (decide (a.toNat + b.toNat > 255))

/-- The flag of the subtraction `a − b`: 1 exactly when there is no borrow (R128, R130, R133). -/
def noBorrowFlag (a b : Byte) : Byte := flagByte (decide (a.toNat ≥ b.toNat))

/-- The bit a right shift moves out (R129). -/
def lowBitFlag (a : Byte) : Byte := flagByte (a.getLsbD 0)

/-- The bit a left shift moves out (R131). -/
def highBitFlag (a : Byte) : Byte := flagByte (a.getLsbD 7)

/-- The range flag of `I + V[x]`: 1 exactly when the untruncated sum is above 0xFFF (R141). -/
def rangeFlag (i : Word) (b : Byte) : Byte := flagByte (decide (i.toNat + b.toNat > 0xFFF))

/-- The collision flag of a draw (R151, R152). -/
def collisionFlag (hit : Bool) : Byte := flagByte hit

end Sys2Proof.Machine
end

