-- ==== Sys2Proof/Machine/Alu.lean ====
section
/-! DEFINITION. Register loads, arithmetic, logic, shifts and random (spec 41_alu.md). Every operand is read from the state
before the instruction, and the flag is written last (R120). -/

namespace Sys2Proof.Machine

open Sys2Proof

/-- The instruction writes `V[x]` and nothing else but PC. -/
def writeReg (x : Nibble) (b : Byte) (s : State) : Result := complete .continue (s.setReg x b).advance

/-- The instruction writes `V[x]`, then the flag to VF, and nothing else but PC (R120). -/
def writeRegFlag (x : Nibble) (b flag : Byte) (s : State) : Result :=
  complete .continue (s.setRegFlag x b flag).advance

/-- 6xkk (R121). -/
def execLdImm (x : Nibble) (kk : Byte) (s : State) : Result := writeReg x kk s

/-- 7xkk (R122): no flag. -/
def execAddImm (x : Nibble) (kk : Byte) (s : State) : Result := writeReg x (s.reg x + kk) s

/-- 8xy0 (R123). -/
def execLdReg (x y : Nibble) (s : State) : Result := writeReg x (s.reg y) s

/-- 8xy1 (R124): VF is not written (R134, D24; log 22). -/
def execOrReg (x y : Nibble) (s : State) : Result := writeReg x (s.reg x ||| s.reg y) s

/-- 8xy2 (R125). -/
def execAndReg (x y : Nibble) (s : State) : Result := writeReg x (s.reg x &&& s.reg y) s

/-- 8xy3 (R126). -/
def execXorReg (x y : Nibble) (s : State) : Result := writeReg x (s.reg x ^^^ s.reg y) s

/-- 8xy4 (R127). -/
def execAddReg (x y : Nibble) (s : State) : Result :=
  writeRegFlag x (s.reg x + s.reg y) (carryFlag (s.reg x) (s.reg y)) s

/-- 8xy5 (R128). -/
def execSub (x y : Nibble) (s : State) : Result :=
  writeRegFlag x (s.reg x - s.reg y) (noBorrowFlag (s.reg x) (s.reg y)) s

/-- 8xy6 (R129): `V[y]` is neither read nor written. -/
def execShr (x _y : Nibble) (s : State) : Result := writeRegFlag x (s.reg x >>> 1) (lowBitFlag (s.reg x)) s

/-- 8xy7 (R130). -/
def execSubn (x y : Nibble) (s : State) : Result :=
  writeRegFlag x (s.reg y - s.reg x) (noBorrowFlag (s.reg y) (s.reg x)) s

/-- 8xyE (R131): `V[y]` is neither read nor written. -/
def execShl (x _y : Nibble) (s : State) : Result := writeRegFlag x (s.reg x <<< 1) (highBitFlag (s.reg x)) s

/-- Cxkk (R132): the random byte is the input of the Step event in progress. -/
def execRnd (x : Nibble) (kk : Byte) (s : State) : Result := writeReg x (s.rnd &&& kk) s

end Sys2Proof.Machine
end

