-- ==== Sys2Proof/Machine/Control.lean ====
section
/-! DEFINITION. Control transfer, skips on registers, and the unrecognized word (spec 40_control_flow.md). -/

namespace Sys2Proof.Machine

open Sys2Proof

/-- 00EE (R100): the popped value is used as it stands. -/
def execRet (s : State) : Result :=
  finish .continue s ((pop s).map fun r => { r.2 with pc := r.1 })

/-- 1nnn (R101). -/
def execJp (nnn : Addr) (s : State) : Result := complete .continue { s with pc := absolute nnn }

/-- 2nnn (R102): the pushed value is `PC + 2`. -/
def execCall (nnn : Addr) (s : State) : Result :=
  finish .continue s ((push (s.pc + 2) s).map fun t => { t with pc := absolute nnn })

/-- Bnnn (R103). -/
def execJpV0 (nnn : Addr) (s : State) : Result := complete .continue { s with pc := s.offsetTarget nnn }

/-- 3xkk (R104). -/
def execSeImm (x : Nibble) (kk : Byte) (s : State) : Result := complete .continue (s.skipIf (s.reg x == kk))

/-- 4xkk (R105). -/
def execSneImm (x : Nibble) (kk : Byte) (s : State) : Result := complete .continue (s.skipIf (s.reg x != kk))

/-- 5xy0 (R106). -/
def execSeReg (x y : Nibble) (s : State) : Result := complete .continue (s.skipIf (s.reg x == s.reg y))

/-- 9xy0 (R107). -/
def execSneReg (x y : Nibble) (s : State) : Result := complete .continue (s.skipIf (s.reg x != s.reg y))

/-- Any other word (R109): only PC changes; no bit of the word matters. -/
def execUnrecognized (_w : Word) (s : State) : Result := complete .continue s.advance

end Sys2Proof.Machine
end

