-- ==== Sys2Proof/Machine/Display.lean ====
section
/-! DEFINITION. The framebuffer instructions (spec 43_display.md). Both answer NeedsRedraw, whether a pixel changed or not. -/

namespace Sys2Proof.Machine

open Sys2Proof

/-- 00E0 (R150). -/
def execCls (s : State) : Result := complete .needsRedraw { s with fb := Framebuffer.clear }.advance

/-- The effect of a draw of these sprite rows at `(vx, vy)`: the framebuffer, and VF written last (R151). -/
def State.drawRows (s : State) (vx vy : Byte) (rows : List Byte) : State :=
  let d := s.fb.draw false (spritePlaces vx vy 0 rows)
  { s with fb := d.1 }.setReg vf (collisionFlag d.2)

/-- Dxyn (R151): all rows are read, so range-checked, before the first pixel changes (R60, R156); `n` = 0 reads none (R153). -/
def execDrw (x y n : Nibble) (s : State) : Result :=
  finish .needsRedraw s
    ((s.mem.load (s.dataAddr 0) n.toNat).map fun rows => (s.drawRows (s.reg x) (s.reg y) rows).advance)

end Sys2Proof.Machine
end

