-- ==== Sys2Proof/Machine/Index.lean ====
section
/-! DEFINITION. The address register and the memory instructions (spec 42_index_memory.md). Fx33, Fx55 and Fx65 check their
whole address range before any effect and leave `I` as it was (R60, R146). -/

namespace Sys2Proof.Machine

open Sys2Proof

/-- Annn (R140). -/
def execLdI (nnn : Addr) (s : State) : Result := complete .continue { s with i := absolute nnn }.advance

/-- Fx1E (R141): both operands are read before `I` and then VF are written. -/
def execAddI (x : Nibble) (s : State) : Result :=
  complete .continue ({ s with i := s.indexSum x }.setReg vf (rangeFlag s.i (s.reg x))).advance

/-- Fx29 (R142). -/
def execLdF (x : Nibble) (s : State) : Result := complete .continue { s with i := glyphAddr (s.reg x) }.advance

/-- Fx33 (R143). -/
def execLdB (x : Nibble) (s : State) : Result :=
  finish .continue s ((s.mem.store (s.dataAddr 0) (decimalDigits (s.reg x))).map fun m => { s with mem := m }.advance)

/-- Fx55 (R144). -/
def execLdMemVx (x : Nibble) (s : State) : Result :=
  finish .continue s ((s.mem.store (s.dataAddr 0) (s.regsTo x)).map fun m => { s with mem := m }.advance)

/-- Fx65 (R145). -/
def execLdVxMem (x : Nibble) (s : State) : Result :=
  finish .continue s ((s.mem.load (s.dataAddr 0) (x.toNat + 1)).map fun bs => (s.setRegs 0 bs).advance)

end Sys2Proof.Machine
end

