-- ==== Sys2Proof/Machine/Keypad.lean ====
section
/-! DEFINITION. The keypad and timer instructions (spec 44_keypad_timers.md). The key is the input of the Step event in
progress (R8); it is a level, and nothing consumes it (R162, R213). -/

namespace Sys2Proof.Machine

open Sys2Proof

/-- Ex9E (R160). -/
def execSkp (x : Nibble) (s : State) : Result := complete .continue (s.skipIf (s.keyMatches x))

/-- ExA1 (R161): the negation of Ex9E's test (R166). -/
def execSknp (x : Nibble) (s : State) : Result := complete .continue (s.skipIf !(s.keyMatches x))

/-- Fx07 (R163). -/
def execLdVxDt (x : Nibble) (s : State) : Result := complete .continue (s.setReg x s.dt).advance

/-- What Fx0A does with the key input: nothing at all without a key (R162, R38). -/
def State.takeKey (s : State) (x : Nibble) : State :=
  match s.key with
  | none => s
  | some k => (s.setReg x (keyByte k)).advance

/-- Fx0A (R162): a wait is a complete step that changes nothing and answers AwaitingKey. -/
def execLdVxK (x : Nibble) (s : State) : Result :=
  complete (if s.key.isSome then .continue else .awaitingKey) (s.takeKey x)

/-- Fx15 (R164). -/
def execLdDtVx (x : Nibble) (s : State) : Result := complete .continue { s with dt := s.reg x }.advance

/-- Fx18 (R165). -/
def execLdStVx (x : Nibble) (s : State) : Result := complete .continue { s with st := s.reg x }.advance

end Sys2Proof.Machine
end

