-- ==== Sys2Proof/Machine/Events.lean ====
section
/-! DEFINITION. The four events at the core's interface (spec R7) and the driver's schedule of them (R6). -/

namespace Sys2Proof.Machine

open Sys2Proof

/-- `Step(key, rnd)`, the step cycle (R72): a set latch answers the same fault again (R175); the fetch may fault (R56);
else the instruction at PC runs. -/
def stepEvent (key : Option Nibble) (rnd : Byte) (s : State) : Result :=
  let s' := { s with key := key, rnd := rnd }
  match s'.fault with
  | some f => raise f s'
  | none =>
    match s'.mem.fetch s'.pc.toNat with
    | .error f => raise f s'
    | .ok w => exec (decodeWord w) s'

/-- `Tick` (R183): `sound_active` is tested before the decrement. It works in every state (R184). -/
def tickEvent (s : State) : Result := .next ((s.afterTicks 1).answer (.sound (s.st != 0)))

/-- `FbRead(x, y)` (R7, R66). -/
def fbReadEvent (x : Fin 64) (y : Fin 32) (s : State) : Result := .next (s.answer (.pixel (s.fb.lit (x, y))))

/-- The state after an accepted `Reset` with these parameters (R200): nothing of an earlier core state is kept; the driver's
schedule, the count of draws and the record of what ticks have answered go on. -/
def State.reload (s : State) (font : Vector Byte 80) (fill : Byte) (image : List Byte) : State :=
  { State.reset with
    mem := Memory.ofFn (resetByte font fill image)
    key := s.key, rnd := s.rnd, pending := s.pending, draws := s.draws, sounds := s.sounds }

/-- `Reset(image)` (R200), refused when the image does not fit (R201, D26). -/
def resetEvent (font : Vector Byte 80) (fill : Byte) (image : List Byte) (s : State) : Result :=
  if image.length + Config.progBase > Config.memSize then .refused .imageTooLarge
  else .next (s.reload font fill image)

/-- One event (R5, R7). -/
def handle (e : Event) (s : State) : Result :=
  match e with
  | .step key rnd => stepEvent key rnd s
  | .tick => tickEvent s
  | .reset image => resetEvent Config.font Config.memFill image s
  | .fbRead x y => fbReadEvent x y s

/-- The code of `FAULT` (R171, D18). -/
def faultCode : Option Fault → BitVec 2
  | none => 0
  | some .addressOutOfRange => 1
  | some .stackOverflow => 2
  | some .stackUnderflow => 3

/-- The code of a status (R178, D19). -/
def statusCode : Status → BitVec 2
  | .continue => 0
  | .needsRedraw => 1
  | .awaitingKey => 2
  | .halted => 3

/-- The next event: the first the driver has fixed; with none fixed, a Step with free inputs after a free number of ticks
(R6, D14, D15; log 2, 3). -/
def nextEvent (s : State) : Event × State :=
  match s.pending with
  | e :: es => (e, { s with pending := es })
  | [] =>
    (.step (Config.key s.draws) (Config.rnd s.draws),
      { s.afterTicks (Config.ticks s.draws) with draws := s.draws + 1 })

/-- The address at which the next Step fetches, moved to the program's base when none can be fetched from there. -/
def State.fetchPc (s : State) : Word := if s.pc.toNat + 1 > 4095 then 0x200 else s.pc

/-- The schedule with a Step as its next event (with none fixed, the next event is a Step already). -/
def State.stepNext (s : State) : List Event :=
  match s.pending with
  | [] => []
  | .step k r :: es => .step k r :: es
  | e :: es => .step s.key s.rnd :: e :: es

/-- The state whose very next step fetches and runs the word `w` (log 13). -/
def State.placeWord (s : State) (w : Word) : State :=
  { s with
    pc := s.fetchPc
    mem := s.mem.setBytes s.fetchPc.toNat (bytesOfWord w)
    fault := none
    pending := s.stepNext }

end Sys2Proof.Machine
end

