-- ==== Sys2Proof/Machine/Step.lean ====
section
/-! DEFINITION. One step of the machine: the next event of the driver's schedule (spec R5, R6; log 2). -/

namespace Sys2Proof.Machine

open Sys2Proof

/-- The next event, handled. -/
def step (s : State) : Host.Outcome State Fault Refusal := handle (nextEvent s).1 (nextEvent s).2

/-- `s` with the instruction of the bits `w` where the next step fetches it (log 12, 13). -/
def State.withFetchWord (s : State) (nbits w : Nat) : State := s.placeWord (tableWord nbits w)

end Sys2Proof.Machine
end

