-- ==== Sys2Proof/Safety.lean ====
section
/-! DEFINITION. The terms claims are stated in: the end of a run (spec R190), the invariant of the machine, what an
instruction leaves unchanged, and the spec's tables over all instructions (R20, R23, R27, R170, R178), each written from the
spec's own table and not from the meanings. -/

namespace Sys2Proof.Machine

open Sys2Proof

/-! ## Runs -/

/-- The end of a run as the spec's observer defines it: no fault, and the word at PC is a jump to PC (R190, D20; log 30).
The hardware goes on executing the jump. -/
def State.ended (s : State) : Prop := s.fault = none ∧ s.mem.fetch s.pc.toNat = .ok (0x1000 ||| s.pc)

/-- What every event keeps: memory is canonical; PC and the return addresses stay in the ranges R28 and R102 name; a status
answered is never Halted (R178); a fault answered stands in the latch (R174). -/
def State.Inv (s : State) : Prop :=
  s.mem.wf ∧ s.pc.toNat ≤ 0x10FE ∧ (∀ j : Fin 16, s.stack[j].toNat ≤ 0x1000) ∧
  s.output ≠ .status .halted ∧ ∀ f, s.output = .fault f → s.fault = some f

/-! ## What stays unchanged -/

/-- The parts of the state beside PC and the event's answer, which every statement names itself. -/
inductive Piece where
  | regs | index | stack | delay | sound | screen | memory | latch | inputs
  deriving DecidableEq, Repr

/-- The part reads in `t` as it reads in `s`: every register, every pixel, every byte of memory. -/
def Unchanged (s t : State) : Piece → Prop
  | .regs => ∀ r, t.reg r = s.reg r
  | .index => t.i = s.i
  | .stack => t.sp = s.sp ∧ t.stack = s.stack
  | .delay => t.dt = s.dt
  | .sound => t.st = s.st
  | .screen => ∀ p, t.fb.lit p = s.fb.lit p
  | .memory => ∀ a, t.mem.byteAt a = s.mem.byteAt a
  | .latch => t.fault = s.fault
  | .inputs => t.key = s.key ∧ t.rnd = s.rnd ∧ t.pending = s.pending ∧ t.draws = s.draws ∧ t.sounds = s.sounds

/-- Every part but the touched ones is unchanged. -/
def Frame (touched : List Piece) (s t : State) : Prop := ∀ p, p ∉ touched → Unchanged s t p

/-- `V[x]` holds `b` and every other register is unchanged. -/
def WritesReg (x : Nibble) (b : Byte) (s t : State) : Prop :=
  t.reg x = b ∧ ∀ r, r ≠ x → t.reg r = s.reg r

/-- VF holds the flag, `V[x]` holds `b` unless it is VF, and every other register is unchanged (R22, R120). -/
def WritesRegFlag (x : Nibble) (b flag : Byte) (s t : State) : Prop :=
  t.reg 0xF = flag ∧ (x ≠ 0xF → t.reg x = b) ∧ ∀ r, r ≠ x → r ≠ 0xF → t.reg r = s.reg r

/-- PC and the status a step leaves. -/
def Leaves (pc : Word) (st : Status) (t : State) : Prop := t.pc = pc ∧ t.output = .status st

/-- The instruction completes from `s` in a next state with the property. -/
def Completes (i : Instr) (s : State) (P : State → Prop) : Prop := ∃ t, exec i s = .next t ∧ P t

/-- The instruction faults from `s`: the latch and the answer name the fault, and nothing else changes (R174). -/
def Faults (i : Instr) (s : State) (f : Fault) : Prop :=
  exec i s = .next { s with fault := some f, output := .fault f }

/-! ## The pixels of a sprite -/

/-- A 1 bit of the `n`-row sprite at `I`, drawn at `(V[x], V[y])`, lands on the pixel `p` (R151, R155). -/
def SpriteCovers (s : State) (x y n : Nibble) (p : Place) : Prop :=
  ∃ r, r < n.toNat ∧ ∃ c, c < 8 ∧ (s.mem.byteAt (s.i.toNat + r)).getLsbD (7 - c) = true ∧
    p.1.val = ((s.reg x).toNat + c) % 64 ∧ p.2.val = ((s.reg y).toNat + r) % 32

/-- Every byte of the sprite lies in memory; a sprite of no rows has none (R151, R153). -/
def SpriteFits (s : State) (n : Nibble) : Prop := n.toNat = 0 ∨ s.i.toNat + n.toNat - 1 ≤ 4095

/-! ## The spec's tables over all instructions -/

/-- The fault an instruction raises in a state (R170, the rows beside the fetch row). -/
def faultOf (i : Instr) (s : State) : Option Fault :=
  match i with
  | .drw _ _ n => if n.toNat > 0 ∧ s.i.toNat + n.toNat - 1 > 4095 then some .addressOutOfRange else none
  | .ldB _ => if s.i.toNat + 2 > 4095 then some .addressOutOfRange else none
  | .ldMemVx x => if s.i.toNat + x.toNat > 4095 then some .addressOutOfRange else none
  | .ldVxMem x => if s.i.toNat + x.toNat > 4095 then some .addressOutOfRange else none
  | .call _ => if s.sp.val = 16 then some .stackOverflow else none
  | .ret => if s.sp.val = 0 then some .stackUnderflow else none
  | .cls | .jp _ | .seImm _ _ | .sneImm _ _ | .seReg _ _ | .ldImm _ _ | .addImm _ _ | .ldReg _ _ | .orReg _ _
  | .andReg _ _ | .xorReg _ _ | .addReg _ _ | .sub _ _ | .shr _ _ | .subn _ _ | .shl _ _ | .sneReg _ _ | .ldI _
  | .jpV0 _ | .rnd _ _ | .skp _ | .sknp _ | .ldVxDt _ | .ldVxK _ | .ldDtVx _ | .ldStVx _ | .addI _ | .ldF _
  | .unrecognized _ => none

/-- Whether the condition of a conditional skip holds; false for every other instruction (R104 to R107, R160, R161). -/
def skipTaken (i : Instr) (s : State) : Prop :=
  match i with
  | .seImm x kk => s.reg x = kk
  | .sneImm x kk => s.reg x ≠ kk
  | .seReg x y => s.reg x = s.reg y
  | .sneReg x y => s.reg x ≠ s.reg y
  | .skp x => ∃ k, s.key = some k ∧ k.toNat = (s.reg x).toNat
  | .sknp x => ¬∃ k, s.key = some k ∧ k.toNat = (s.reg x).toNat
  | .cls | .ret | .jp _ | .call _ | .ldImm _ _ | .addImm _ _ | .ldReg _ _ | .orReg _ _ | .andReg _ _ | .xorReg _ _
  | .addReg _ _ | .sub _ _ | .shr _ _ | .subn _ _ | .shl _ _ | .ldI _ | .jpV0 _ | .rnd _ _ | .drw _ _ _ | .ldVxDt _
  | .ldVxK _ | .ldDtVx _ | .ldStVx _ | .addI _ | .ldF _ | .ldB _ | .ldMemVx _ | .ldVxMem _ | .unrecognized _ => False

/-- The instructions that load PC themselves (R27, R73). -/
def loadsPc : Instr → Bool
  | .ret | .jp _ | .call _ | .jpV0 _ => true
  | .cls | .seImm _ _ | .sneImm _ _ | .seReg _ _ | .ldImm _ _ | .addImm _ _ | .ldReg _ _ | .orReg _ _ | .andReg _ _
  | .xorReg _ _ | .addReg _ _ | .sub _ _ | .shr _ _ | .subn _ _ | .shl _ _ | .sneReg _ _ | .ldI _ | .rnd _ _
  | .drw _ _ _ | .skp _ | .sknp _ | .ldVxDt _ | .ldVxK _ | .ldDtVx _ | .ldStVx _ | .addI _ | .ldF _ | .ldB _
  | .ldMemVx _ | .ldVxMem _ | .unrecognized _ => false

/-- The status a step of the instruction answers when it does not fault (R178). -/
def statusOf (i : Instr) (s : State) : Status :=
  match i with
  | .cls | .drw _ _ _ => .needsRedraw
  | .ldVxK _ => if s.key = none then .awaitingKey else .continue
  | .ret | .jp _ | .call _ | .seImm _ _ | .sneImm _ _ | .seReg _ _ | .ldImm _ _ | .addImm _ _ | .ldReg _ _ | .orReg _ _
  | .andReg _ _ | .xorReg _ _ | .addReg _ _ | .sub _ _ | .shr _ _ | .subn _ _ | .shl _ _ | .sneReg _ _ | .ldI _
  | .jpV0 _ | .rnd _ _ | .skp _ | .sknp _ | .ldVxDt _ | .ldDtVx _ | .ldStVx _ | .addI _ | .ldF _ | .ldB _
  | .ldMemVx _ | .ldVxMem _ | .unrecognized _ => .continue

/-- The general registers an instruction may write in a state (R23, last column): Fx0A none without a key. -/
def mayWriteReg (i : Instr) (s : State) (r : Nibble) : Prop :=
  match i with
  | .ldImm x _ | .addImm x _ | .ldReg x _ | .orReg x _ | .andReg x _ | .xorReg x _ | .rnd x _
  | .ldVxDt x => r = x
  | .ldVxK x => r = x ∧ s.key ≠ none
  | .addReg x _ | .sub x _ | .subn x _ | .shr x _ | .shl x _ => r = x ∨ r = 0xF
  | .drw _ _ _ | .addI _ => r = 0xF
  | .ldVxMem x => r.toNat ≤ x.toNat
  | .cls | .ret | .jp _ | .call _ | .seImm _ _ | .sneImm _ _ | .seReg _ _ | .sneReg _ _ | .ldI _ | .jpV0 _ | .skp _
  | .sknp _ | .ldDtVx _ | .ldStVx _ | .ldF _ | .ldB _ | .ldMemVx _ | .unrecognized _ => False

/-- The parts of the state an instruction may write beside PC (R20, column "written by"). -/
def mayWrite : Instr → List Piece
  | .ldImm _ _ | .addImm _ _ | .ldReg _ _ | .orReg _ _ | .andReg _ _ | .xorReg _ _ | .addReg _ _ | .sub _ _ | .shr _ _
  | .subn _ _ | .shl _ _ | .rnd _ _ | .ldVxDt _ | .ldVxK _ | .ldVxMem _ => [.regs]
  | .drw _ _ _ => [.regs, .screen]
  | .addI _ => [.regs, .index]
  | .ldI _ | .ldF _ => [.index]
  | .call _ | .ret => [.stack]
  | .ldDtVx _ => [.delay]
  | .ldStVx _ => [.sound]
  | .cls => [.screen]
  | .ldB _ | .ldMemVx _ => [.memory]
  | .jp _ | .seImm _ _ | .sneImm _ _ | .seReg _ _ | .sneReg _ _ | .jpV0 _ | .skp _ | .sknp _ | .unrecognized _ => []

/-- Whether the instruction reads the `key` input of its step (R186). -/
def readsKey : Instr → Bool
  | .skp _ | .sknp _ | .ldVxK _ => true
  | .cls | .ret | .jp _ | .call _ | .seImm _ _ | .sneImm _ _ | .seReg _ _ | .ldImm _ _ | .addImm _ _ | .ldReg _ _
  | .orReg _ _ | .andReg _ _ | .xorReg _ _ | .addReg _ _ | .sub _ _ | .shr _ _ | .subn _ _ | .shl _ _ | .sneReg _ _
  | .ldI _ | .jpV0 _ | .rnd _ _ | .drw _ _ _ | .ldVxDt _ | .ldDtVx _ | .ldStVx _ | .addI _ | .ldF _ | .ldB _
  | .ldMemVx _ | .ldVxMem _ | .unrecognized _ => false

/-- Whether the instruction reads the `rnd` input of its step (R186). -/
def readsRnd : Instr → Bool
  | .rnd _ _ => true
  | .cls | .ret | .jp _ | .call _ | .seImm _ _ | .sneImm _ _ | .seReg _ _ | .ldImm _ _ | .addImm _ _ | .ldReg _ _
  | .orReg _ _ | .andReg _ _ | .xorReg _ _ | .addReg _ _ | .sub _ _ | .shr _ _ | .subn _ _ | .shl _ _ | .sneReg _ _
  | .ldI _ | .jpV0 _ | .drw _ _ _ | .skp _ | .sknp _ | .ldVxDt _ | .ldVxK _ | .ldDtVx _ | .ldStVx _ | .addI _
  | .ldF _ | .ldB _ | .ldMemVx _ | .ldVxMem _ | .unrecognized _ => false

/-- `n` steps one after another; a step that does not give a next state ends the sequence. -/
def stepN : Nat → State → Result
  | 0, s => .next s
  | n + 1, s =>
    match step s with
    | .next t => stepN n t
    | .fault f => .fault f
    | .refused r => .refused r

/-- One call after another, from the first of the list on; a call that does not give a next state ends the sequence. -/
def callAll : List Addr → State → Result
  | [], s => .next s
  | nnn :: ns, s =>
    match exec (.call nnn) s with
    | .next t => callAll ns t
    | .fault f => .fault f
    | .refused r => .refused r

/-- `n` returns one after another; a return that does not give a next state ends the sequence. -/
def returnAll : Nat → State → Result
  | 0, s => .next s
  | n + 1, s =>
    match exec .ret s with
    | .next t => returnAll n t
    | .fault f => .fault f
    | .refused r => .refused r

end Sys2Proof.Machine
end

