-- ==== Sys2Proof/Certificates/Slice0/Obligations.lean ====
section
/-! DEFINITION. The statements for the provers, in the order of OBLIGATIONS.json. -/

open Sys2Proof Sys2Proof.Machine

/-! ## Encoding -/

/-- Words written out from the spec's vectors (95_test_vectors.md L2-a) decode as the spec says. The unrecognized ones rest on
the spec's decision D17 (log 19), the minor digits of the 8xy group on R76's assignment (log 34). -/
def Obligations.SpecWordsDecode : Prop :=
  decodeWord 0x00E0 = .cls ∧ decodeWord 0x00EE = .ret ∧ decodeWord 0x00E1 = .unrecognized 0x00E1 ∧
  decodeWord 0x1ABC = .jp 0xABC ∧ decodeWord 0x2FFF = .call 0xFFF ∧ decodeWord 0x3A7F = .seImm 0xA 0x7F ∧
  decodeWord 0x5AB1 = .unrecognized 0x5AB1 ∧ decodeWord 0x8AB4 = .addReg 0xA 0xB ∧
  decodeWord 0x8ABF = .unrecognized 0x8ABF ∧ decodeWord 0xB123 = .jpV0 0x123 ∧ decodeWord 0xD125 = .drw 1 2 5 ∧
  decodeWord 0xE19E = .skp 1 ∧ decodeWord 0xF965 = .ldVxMem 9 ∧ decodeWord 0xF075 = .unrecognized 0xF075

/-- Every well-formed instruction, laid out in memory's byte order with any bytes after it, decodes to itself and leaves
those bytes: no field of an encoding is dropped (R70, R71, R75). -/
def Obligations.DecodeOfEncode : Prop :=
  ∀ (i : Instr) (rest : List Byte), i.wellFormed = true → decode (encodeBytes i ++ rest) = .ok (i, rest)

/-- Every one of the 65536 words decodes to a well-formed instruction, and encoding that gives the word back (R78). -/
def Obligations.EncodeOfDecode : Prop :=
  ∀ w : Word, (decodeWord w).wellFormed = true ∧ encode (decodeWord w) = w

/-- The decoder agrees with the mask and match columns of R76: a word is unrecognized exactly when no row of the map accepts
it. That the match is exact is the spec's decision D17 (log 19). -/
def Obligations.UnrecognizedIffUnmatched : Prop :=
  ∀ w : Word, decodeWord w = .unrecognized w ↔ ∀ r ∈ opcodeMap, w &&& r.mask ≠ r.pattern

/-- No word is accepted by two rows of the opcode map (R77). -/
def Obligations.OpcodeRowsDisjoint : Prop :=
  ∀ (w : Word) (r q : OpcodeRow), r ∈ opcodeMap → q ∈ opcodeMap → r.accepts w = true → q.accepts w = true → r = q

/-! ## Events, the step cycle, faults -/

/-- A step of the machine is the next event the driver has fixed; with none fixed, a Step event with some key and some
random byte after some number of ticks (R5, R6). The schedule and its default are the model's (log 2, 3). -/
def Obligations.StepTakesNextEvent : Prop :=
  (∀ (s : State) (e : Event) (es : List Event), s.pending = e :: es → step s = handle e { s with pending := es }) ∧
  (∀ s : State, s.pending = [] →
    ∃ (key : Option Nibble) (rnd : Byte) (n : Nat),
      step s = handle (.step key rnd) { s.afterTicks n with draws := s.draws + 1 })

/-- When the two bytes at PC decode to a well-formed instruction and no fault is latched, a step whose event is a Step is
`exec` of that instruction with the event's inputs in place; with no event fixed, after some number of ticks (R72). -/
def Obligations.StepRunsDecoded : Prop :=
  ∀ (s : State) (i : Instr), s.fault = none → s.pc.toNat + 1 ≤ 4095 →
    decode [s.mem.byteAt s.pc.toNat, s.mem.byteAt (s.pc.toNat + 1)] = .ok (i, []) → i.wellFormed = true →
    (∀ key rnd es, s.pending = .step key rnd :: es →
      step s = exec i { s with pending := es, key := key, rnd := rnd }) ∧
    (s.pending = [] → ∃ key rnd n,
      step s = exec i { s.afterTicks n with draws := s.draws + 1, key := key, rnd := rnd })

/-- The instruction fetch `MemRead(addr, 2)` (R56): it faults when the second byte would lie above 4095, and else gives the
big-endian word of the two bytes. That it does so at odd addresses too is the spec's decision D27 (R54; log 21). -/
def Obligations.FetchIsBigEndianAndBounded : Prop :=
  ∀ (m : Memory) (a : Nat),
    (a + 1 > 4095 → m.fetch a = .error .addressOutOfRange) ∧
    (a + 1 ≤ 4095 → ∃ w, m.fetch a = .ok w ∧ w.toNat = 256 * (m.byteAt a).toNat + (m.byteAt (a + 1)).toNat)

/-- The causes of the three faults, complete (R170): a Step event from an unfaulted state records a fault exactly as the
table says, the fetch row first. That a faulting Step is a next state is the model's choice (log 5); that it records the
fault in the latch of R36 is the spec's decision D7 (log 15). -/
def Obligations.FaultCausesComplete : Prop :=
  ∀ (s : State) (key : Option Nibble) (rnd : Byte), s.fault = none →
    ∃ t, handle (.step key rnd) s = .next t ∧
      (s.pc.toNat + 1 > 4095 → t.fault = some .addressOutOfRange) ∧
      (s.pc.toNat + 1 ≤ 4095 →
        t.fault = faultOf (decodeWord (s.mem.byteAt s.pc.toNat ++ s.mem.byteAt (s.pc.toNat + 1))) s)

/-- A faulting instruction, and a faulting fetch, changes nothing but the latch and the answer (R174, which rests on the
spec's decision D6; log 5, 14). -/
def Obligations.FaultChangesNothingElse : Prop :=
  (∀ (i : Instr) (s : State) (f : Fault), faultOf i s = some f → Faults i s f) ∧
  (∀ (s : State) (key : Option Nibble) (rnd : Byte) (es : List Event),
    s.pending = .step key rnd :: es → s.fault = none → s.pc.toNat + 1 > 4095 →
    step s = .next { s with
      pending := es, key := key, rnd := rnd, fault := some .addressOutOfRange, output := .fault .addressOutOfRange })

/-- A set latch stays set through every event but a Reset, and a Step then answers the same fault and does nothing (R175,
which rests on the spec's decision D7; log 15). -/
def Obligations.FaultLatchIsSticky : Prop :=
  ∀ (s : State) (f : Fault), s.fault = some f →
    (∀ key rnd es, s.pending = .step key rnd :: es →
      step s = .next { s with pending := es, key := key, rnd := rnd, output := .fault f }) ∧
    (∀ t, step s = .next t → (∀ image es, s.pending ≠ .reset image :: es) → t.fault = some f)

/-- The `Tick` event (R183): the sound output is tested before the decrement, each timer stops at 0, and no other state of
the core changes; the answer is recorded (log 33). That it does so in the faulted state too is the spec's decision D22
(R184; log 25). -/
def Obligations.TickCountsDown : Prop :=
  ∀ (s : State) (es : List Event), s.pending = .tick :: es →
    ∃ t, step s = .next t ∧ t.output = .sound (decide (s.st.toNat > 0)) ∧
      t.st.toNat = (if s.st.toNat > 0 then s.st.toNat - 1 else 0) ∧
      t.dt.toNat = (if s.dt.toNat > 0 then s.dt.toNat - 1 else 0) ∧
      t.sounds = s.sounds ++ [decide (s.st.toNat > 0)] ∧
      t = { s with pending := es, st := t.st, dt := t.dt, output := t.output, sounds := t.sounds }

/-- After `n + 1` ticks in a row the timers have counted down `n + 1` times, not below 0, and the ticks reported sound
exactly while ST was above 0: tick `k` of them, counted from 0, exactly when ST held more than `k` before the first (R33,
R185). That it holds in the faulted state too is the spec's decision D22 (R184; log 25). -/
def Obligations.SoundForExactlyStTicks : Prop :=
  ∀ (n : Nat) (s : State) (es : List Event), s.pending = List.replicate (n + 1) .tick ++ es →
    ∃ t, stepN (n + 1) s = .next t ∧ t.output = .sound (decide (n < s.st.toNat)) ∧
      t.sounds = s.sounds ++ (List.range (n + 1)).map (fun k => decide (k < s.st.toNat)) ∧
      t.st.toNat = s.st.toNat - (n + 1) ∧ t.dt.toNat = s.dt.toNat - (n + 1) ∧ t.pending = es

/-- `FbRead(x, y)` answers the pixel and changes no state of the core (R7, R66). -/
def Obligations.FbReadAnswersPixel : Prop :=
  ∀ (s : State) (x : Fin 64) (y : Fin 32) (es : List Event), s.pending = .fbRead x y :: es →
    step s = .next { s with pending := es, output := .pixel (s.fb[x][y]) }

/-- `Reset(image)` for every font, every fill and every image that fits (R200): the memory map of R51, canonical memory, and
the register values of R39; and the machine's own Reset event is that operation with its own font and fill and the event's
image. The register values are the spec's decisions D3, D4, D7 (log 6, 7); the font and the fill of the machine are the
spec's defaults (log 9, 10). -/
def Obligations.ResetLoadsImage : Prop :=
  (∀ (font : Vector Byte 80) (fill : Byte) (image : List Byte) (s : State), image.length ≤ 3584 →
    ∃ t, resetEvent font fill image s = .next t ∧
      (∀ (j : Nat) (h : j < 80), t.mem.byteAt j = font[j]) ∧
      (∀ (j : Nat) (h : j < image.length), t.mem.byteAt (0x200 + j) = image[j]) ∧
      (∀ a, 0x050 ≤ a → a < 0x200 → t.mem.byteAt a = fill) ∧
      (∀ a, 0x200 + image.length ≤ a → a < 4096 → t.mem.byteAt a = fill) ∧
      t.mem.wf ∧ (∀ r, t.reg r = 0) ∧ t.i = 0 ∧ t.pc = 0x200 ∧ t.sp = 0 ∧ t.dt = 0 ∧ t.st = 0 ∧
      (∀ p, t.fb.lit p = false) ∧ t.fault = none ∧ t.output = .loaded ∧ Unchanged s t .inputs) ∧
  (∀ (s : State) (image : List Byte) (es : List Event), s.pending = .reset image :: es → image.length ≤ 3584 →
    step s = resetEvent Config.font Config.memFill image { s with pending := es })

/-- A Reset with an image of 3585 bytes or more is refused, one of 3584 bytes or fewer is not (R201). That a refused reset
has no state at all is the spec's decision D26 (log 27). -/
def Obligations.ResetRefusesLargeImage : Prop :=
  ∀ (s : State) (image : List Byte) (es : List Event), s.pending = .reset image :: es →
    (image.length + 0x200 > 4096 ↔ step s = .refused .imageTooLarge)

/-- The state right after reset with an empty image: R39's values, the font bytes of `Config.font`, the fill elsewhere. The
values are the spec's decisions D3, D4, D5, D7, D23 (log 6, 7, 9, 10); that of the stack slots is the model's (log 8). -/
def Obligations.ResetStateValues : Prop :=
  (∀ r, State.reset.reg r = 0) ∧ State.reset.i = 0 ∧ State.reset.pc = 0x0200 ∧ State.reset.sp = 0 ∧
  (∀ j : Fin 16, State.reset.stack[j] = 0) ∧ State.reset.dt = 0 ∧ State.reset.st = 0 ∧
  (∀ p, State.reset.fb.lit p = false) ∧ State.reset.fault = none ∧ State.reset.mem = [] ∧
  (∀ (a : Nat) (h : a < 80), State.reset.mem.byteAt a = Config.font[a]) ∧
  (∀ a, 80 ≤ a → State.reset.mem.byteAt a = 0x00)

/-! ## Invariants and whole-machine rules -/

/-- The invariant holds right after reset. That PC is in its range rests on the spec's decision D4 (log 7); that the stack
slots, which R39 leaves unspecified, are in theirs rests on the model's choice of 0 for them (log 8). -/
def Obligations.ResetMeetsInvariant : Prop := State.reset.Inv

/-- Every event keeps the invariant, from every state that meets it: canonical memory, PC at most 0x10FE, return addresses
at most 0x1000, no Halted status, an answered fault stands in the latch (R28, R102, R174, R178). -/
def Obligations.StepKeepsInvariant : Prop :=
  ∀ s t : State, s.Inv → step s = .next t → t.Inv

/-- Every instruction answers a next state from every state, and so does every step but a Reset with too large an image:
nothing else stops the machine (R78, R170, R190, R201). That a fault is a next state is the model's (log 5). -/
def Obligations.NothingElseStops : Prop :=
  (∀ (i : Instr) (s : State), ∃ t, exec i s = .next t) ∧
  (∀ s : State, (∀ image es, s.pending = .reset image :: es → image.length ≤ 3584) → ∃ t, step s = .next t)

/-- How each instruction leaves PC, complete (R27). The spec's decisions in it: the value popped is that of slot `SP - 1` (D8,
R29; log 26), the key condition with no key or with Vx above 15 (D11, D12, R166; log 18), the sum of Bnnn not masked (D28,
R28; log 20), PC kept on a fault (D6, R60, R174; log 14). -/
def Obligations.PcTableComplete : Prop :=
  ∀ (i : Instr) (s t : State), exec i s = .next t →
    ((faultOf i s).isSome = true → t.pc = s.pc) ∧
    (faultOf i s = none →
      (∀ nnn, i = .jp nnn ∨ i = .call nnn → t.pc.toNat = nnn.toNat) ∧
      (∀ nnn, i = .jpV0 nnn → t.pc.toNat = nnn.toNat + (s.reg 0).toNat) ∧
      (i = .ret → ∀ h : s.sp.val - 1 < 16, t.pc = s.stack[s.sp.val - 1]) ∧
      ((∃ x, i = .ldVxK x) ∧ s.key = none → t.pc = s.pc) ∧
      (skipTaken i s → t.pc = s.pc + 4) ∧
      (loadsPc i = false → ¬skipTaken i s → ¬((∃ x, i = .ldVxK x) ∧ s.key = none) → t.pc = s.pc + 2))

/-- The status of every step that does not fault (R178): NeedsRedraw, AwaitingKey and Continue where the table says so, and
Halted never. That the unnamed rest is Continue is the spec's decision D21 (log 24). -/
def Obligations.StatusTableComplete : Prop :=
  ∀ (i : Instr) (s t : State), exec i s = .next t →
    (faultOf i s = none → t.output = .status (statusOf i s) ∧ statusOf i s ≠ .halted) ∧
    (∀ f, faultOf i s = some f → t.output = .fault f)

/-- Which instruction writes which general register (R23): every register outside the table's last column is unchanged, Fx0A
without a key writing none; and a faulting instruction writes none, which is the spec's decision D6 (R60, R174; log 14). -/
def Obligations.RegistersWrittenAsListed : Prop :=
  ∀ (i : Instr) (s t : State) (r : Nibble), exec i s = .next t →
    (¬mayWriteReg i s r ∨ (faultOf i s).isSome = true) → t.reg r = s.reg r

/-- Which instruction writes which component of the state (R20, column "written by"): memory only Fx33 and Fx55, `I` only
Annn, Fx1E and Fx29, the stack only 2nnn and 00EE, DT and ST only Fx15 and Fx18, the framebuffer only 00E0 and Dxyn. That a
faulting instruction changes the latch alone, PC unchanged too, is the spec's decision D6 (R60, R174; log 14). -/
def Obligations.ComponentsWrittenAsListed : Prop :=
  ∀ (i : Instr) (s t : State), exec i s = .next t →
    (faultOf i s = none → Frame (mayWrite i) s t) ∧ ((faultOf i s).isSome = true → t.pc = s.pc ∧ Frame [.latch] s t)

/-- Only the three key instructions depend on the key input and only Cxkk on the random byte: any other instruction does the
same whatever the input is (R7, R38, R186). -/
def Obligations.InputsReadOnlyWhereListed : Prop :=
  ∀ (i : Instr) (s t : State) (key : Option Nibble) (rnd : Byte), exec i s = .next t →
    (readsKey i = false → exec i { s with key := key } = .next { t with key := key }) ∧
    (readsRnd i = false → exec i { s with rnd := rnd } = .next { t with rnd := rnd })

/-- From the end of a run a Step event changes nothing: the machine executes the jump to itself (R190, a definition of the
spec's observer, D20; log 30). -/
def Obligations.EndOfRunIsStable : Prop :=
  ∀ (s : State) (key : Option Nibble) (rnd : Byte) (es : List Event), s.ended → s.pending = .step key rnd :: es →
    step s = .next { s with pending := es, key := key, rnd := rnd, output := .status .continue }

/-! ## Control transfer -/

/-- 00EE (R100, R31): with an entry held, PC is the popped value, the pointer goes down by one and every slot keeps its
value; with an empty stack, StackUnderflow and nothing else changes. That the value popped is that of slot `SP - 1` and that
the slot keeps it is the spec's decision D8 (R29; log 26); the absence of a partial effect is D6 (log 14). -/
def Obligations.RetPopsPc : Prop :=
  decodeWord 0x00EE = .ret ∧
  ∀ s : State,
    (∀ h : 0 < s.sp.val, Completes .ret s fun t =>
      Leaves (s.stack[s.sp.val - 1]) .continue t ∧ t.sp.val = s.sp.val - 1 ∧ t.stack = s.stack ∧ Frame [.stack] s t) ∧
    (s.sp.val = 0 → Faults .ret s .stackUnderflow)

/-- 2nnn (R102, R30): with fewer than 16 entries held, `PC + 2` goes into slot `SP`, every other slot keeps its value, the
pointer goes up by one and PC is `nnn`; with 16 held, StackOverflow and nothing else changes. That the push writes slot `SP`
and that SP counts the entries is the spec's decision D8 (R29; log 26); the absence of a partial effect is D6 (log 14). -/
def Obligations.CallPushesNext : Prop :=
  ∀ (nnn : Addr) (s : State),
    decodeWord (formNnn 0x2 nnn) = .call nnn ∧
    (∀ h : s.sp.val < 16, Completes (.call nnn) s fun t =>
      Leaves (nnn.setWidth 16) .continue t ∧ t.sp.val = s.sp.val + 1 ∧
      t.stack[s.sp.val] = s.pc + 2 ∧ (∀ j : Fin 16, j.val ≠ s.sp.val → t.stack[j] = s.stack[j]) ∧ Frame [.stack] s t) ∧
    (s.sp.val = 16 → Faults (.call nnn) s .stackOverflow)

/-- A return with the stack a call left resumes after the call, with the pointer as it was before it (R100, R102). That SP
counts the entries held is the spec's decision D8 (log 26). -/
def Obligations.RetAfterCallResumes : Prop :=
  ∀ (nnn : Addr) (s t u : State), exec (.call nnn) s = .next t → t.fault = none → u.sp = t.sp → u.stack = t.stack →
    Completes .ret u fun w => Leaves (s.pc + 2) .continue w ∧ w.sp = s.sp

/-- The call stack's discipline (R102, R32): from an empty stack 16 calls in a row succeed and a 17th overflows; after them
the `j + 1`-th return, for each of 16, resumes after the call made `j` calls before the last, so in reverse order; and after
16 returns a 17th underflows. That SP counts the entries held is the spec's decision D8 (log 26). -/
def Obligations.SixteenCallsAndReturns : Prop :=
  ∀ (ns : List Addr) (s : State), s.sp.val = 0 → s.fault = none → ns.length = 16 →
    ∃ t, callAll ns s = .next t ∧ t.fault = none ∧ t.sp.val = 16 ∧ (∀ nnn, Faults (.call nnn) t .stackOverflow) ∧
      (∀ j, j < 16 → ∃ u, returnAll (j + 1) t = .next u ∧ u.fault = none ∧
        u.pc = (s.pc :: ns.map fun nnn => nnn.setWidth 16).getD (15 - j) 0 + 2) ∧
      ∃ u, returnAll 16 t = .next u ∧ Faults .ret u .stackUnderflow

/-- 1nnn and Bnnn (R101, R103): PC is `nnn`, or `nnn` plus V0; nothing else changes. That the sum is not masked to 12 bits
is the spec's decision D28 (R28; log 20). -/
def Obligations.JumpsLoadPc : Prop :=
  ∀ (nnn : Addr) (s : State),
    decodeWord (formNnn 0x1 nnn) = .jp nnn ∧ decodeWord (formNnn 0xB nnn) = .jpV0 nnn ∧
    (Completes (.jp nnn) s fun t => t.pc.toNat = nnn.toNat ∧ t.output = .status .continue ∧ Frame [] s t) ∧
    (Completes (.jpV0 nnn) s fun t =>
      t.pc.toNat = nnn.toNat + (s.reg 0).toNat ∧ t.output = .status .continue ∧ Frame [] s t)

/-- 3xkk and 4xkk (R104, R105): the skip on an immediate; nothing but PC changes. -/
def Obligations.SkipsOnImmediate : Prop :=
  ∀ (x : Nibble) (kk : Byte) (s : State),
    decodeWord (formXkk 0x3 x kk) = .seImm x kk ∧ decodeWord (formXkk 0x4 x kk) = .sneImm x kk ∧
    (Completes (.seImm x kk) s fun t =>
      Leaves (if (s.reg x).toNat = kk.toNat then s.pc + 4 else s.pc + 2) .continue t ∧ Frame [] s t) ∧
    (Completes (.sneImm x kk) s fun t =>
      Leaves (if (s.reg x).toNat ≠ kk.toNat then s.pc + 4 else s.pc + 2) .continue t ∧ Frame [] s t)

/-- 5xy0 and 9xy0 (R106, R107): the skip on two registers; the words with another last digit are unrecognized, which is the
spec's decision D17 (R77; log 19). -/
def Obligations.SkipsOnRegisters : Prop :=
  ∀ (x y n : Nibble) (s : State),
    decodeWord (formXyn 0x5 x y 0) = .seReg x y ∧ decodeWord (formXyn 0x9 x y 0) = .sneReg x y ∧
    (n ≠ 0 → decodeWord (formXyn 0x5 x y n) = .unrecognized (formXyn 0x5 x y n) ∧
      decodeWord (formXyn 0x9 x y n) = .unrecognized (formXyn 0x9 x y n)) ∧
    (Completes (.seReg x y) s fun t =>
      Leaves (if (s.reg x).toNat = (s.reg y).toNat then s.pc + 4 else s.pc + 2) .continue t ∧ Frame [] s t) ∧
    (Completes (.sneReg x y) s fun t =>
      Leaves (if (s.reg x).toNat ≠ (s.reg y).toNat then s.pc + 4 else s.pc + 2) .continue t ∧ Frame [] s t)

/-- An unmatched word (R109): it is the no-op, which advances PC by 2 and changes nothing else. That a word no row accepts is
unrecognized, so that the match is exact, is the spec's decision D17 (R77; log 19). -/
def Obligations.UnrecognizedIsNoOp : Prop :=
  ∀ (w : Word) (s : State),
    (unmatched w = true → decodeWord w = .unrecognized w) ∧
    (Completes (.unrecognized w) s fun t => Leaves (s.pc + 2) .continue t ∧ Frame [] s t)

/-! ## Registers and arithmetic -/

/-- 6xkk and 8xy0 (R121, R123): the loads of a register. The minor digit 0 is R76's assignment (log 34). -/
def Obligations.RegisterLoads : Prop :=
  ∀ (x y : Nibble) (kk : Byte) (s : State),
    decodeWord (formXkk 0x6 x kk) = .ldImm x kk ∧ decodeWord (formXyn 0x8 x y 0) = .ldReg x y ∧
    (Completes (.ldImm x kk) s fun t => WritesReg x kk s t ∧ Leaves (s.pc + 2) .continue t ∧ Frame [.regs] s t) ∧
    (Completes (.ldReg x y) s fun t => WritesReg x (s.reg y) s t ∧ Leaves (s.pc + 2) .continue t ∧ Frame [.regs] s t)

/-- 7xkk (R122): the sum modulo 256, and no flag: VF is unchanged unless it is the destination. -/
def Obligations.AddImmediateWrapsWithoutFlag : Prop :=
  ∀ (x : Nibble) (kk : Byte) (s : State),
    decodeWord (formXkk 0x7 x kk) = .addImm x kk ∧
    (Completes (.addImm x kk) s fun t =>
      (t.reg x).toNat = ((s.reg x).toNat + kk.toNat) % 256 ∧ WritesReg x (t.reg x) s t ∧
      Leaves (s.pc + 2) .continue t ∧ Frame [.regs] s t)

/-- 8xy1, 8xy2 and 8xy3 (R124, R125, R126): the logic instructions bit by bit. That VF is not written rests on the spec's
decision D24 (log 22); the minor digits 1, 2 and 3 are R76's assignment (log 34). -/
def Obligations.LogicBitByBit : Prop :=
  ∀ (x y : Nibble) (s : State),
    decodeWord (formXyn 0x8 x y 1) = .orReg x y ∧ decodeWord (formXyn 0x8 x y 2) = .andReg x y ∧
    decodeWord (formXyn 0x8 x y 3) = .xorReg x y ∧
    (Completes (.orReg x y) s fun t =>
      (∀ k, (t.reg x).getLsbD k = true ↔ (s.reg x).getLsbD k = true ∨ (s.reg y).getLsbD k = true) ∧
      WritesReg x (t.reg x) s t ∧ Leaves (s.pc + 2) .continue t ∧ Frame [.regs] s t) ∧
    (Completes (.andReg x y) s fun t =>
      (∀ k, (t.reg x).getLsbD k = true ↔ (s.reg x).getLsbD k = true ∧ (s.reg y).getLsbD k = true) ∧
      WritesReg x (t.reg x) s t ∧ Leaves (s.pc + 2) .continue t ∧ Frame [.regs] s t) ∧
    (Completes (.xorReg x y) s fun t =>
      (∀ k, (t.reg x).getLsbD k = true ↔ (s.reg x).getLsbD k ≠ (s.reg y).getLsbD k) ∧
      WritesReg x (t.reg x) s t ∧ Leaves (s.pc + 2) .continue t ∧ Frame [.regs] s t)

/-- 8xy4 (R127): the sum modulo 256, then VF = carry, both from the operands as they were; with VF as the destination only
the flag remains. The minor digit 4 is R76's assignment (log 34). -/
def Obligations.AddRegistersCarry : Prop :=
  ∀ (x y : Nibble) (s : State),
    decodeWord (formXyn 0x8 x y 4) = .addReg x y ∧
    (Completes (.addReg x y) s fun t =>
      WritesRegFlag x (BitVec.ofNat 8 (((s.reg x).toNat + (s.reg y).toNat) % 256))
        (if (s.reg x).toNat + (s.reg y).toNat > 255 then 1 else 0) s t ∧
      Leaves (s.pc + 2) .continue t ∧ Frame [.regs] s t)

/-- 8xy5 and 8xy7 (R128, R130): the difference modulo 256, then VF = no borrow, both from the operands as they were. The
minor digits 5 and 7 are R76's assignment (log 34). -/
def Obligations.SubtractNoBorrow : Prop :=
  ∀ (x y : Nibble) (s : State),
    decodeWord (formXyn 0x8 x y 5) = .sub x y ∧ decodeWord (formXyn 0x8 x y 7) = .subn x y ∧
    (Completes (.sub x y) s fun t =>
      WritesRegFlag x (BitVec.ofInt 8 ((s.reg x).toNat - (s.reg y).toNat : Int))
        (if (s.reg x).toNat ≥ (s.reg y).toNat then 1 else 0) s t ∧
      Leaves (s.pc + 2) .continue t ∧ Frame [.regs] s t) ∧
    (Completes (.subn x y) s fun t =>
      WritesRegFlag x (BitVec.ofInt 8 ((s.reg y).toNat - (s.reg x).toNat : Int))
        (if (s.reg y).toNat ≥ (s.reg x).toNat then 1 else 0) s t ∧
      Leaves (s.pc + 2) .continue t ∧ Frame [.regs] s t)

/-- 8xy6 and 8xyE (R129, R131): Vx shifted in place by one, filled with 0, then VF = the bit moved out. That `V[y]` plays no
part, and is unchanged unless it is Vx or VF, is the spec's decision D24 (log 22); the minor digits 6 and E are R76's
assignment (log 34). -/
def Obligations.ShiftsInPlace : Prop :=
  ∀ (x y : Nibble) (s : State),
    decodeWord (formXyn 0x8 x y 6) = .shr x y ∧ decodeWord (formXyn 0x8 x y 0xE) = .shl x y ∧
    (Completes (.shr x y) s fun t =>
      WritesRegFlag x (BitVec.ofNat 8 ((s.reg x).toNat / 2)) (BitVec.ofNat 8 ((s.reg x).toNat % 2)) s t ∧
      Leaves (s.pc + 2) .continue t ∧ Frame [.regs] s t) ∧
    (Completes (.shl x y) s fun t =>
      WritesRegFlag x (BitVec.ofNat 8 ((s.reg x).toNat * 2 % 256)) (BitVec.ofNat 8 ((s.reg x).toNat / 128)) s t ∧
      Leaves (s.pc + 2) .continue t ∧ Frame [.regs] s t)

/-- Cxkk (R132): the step's random byte, masked. It holds for every random byte. -/
def Obligations.RandomIsMasked : Prop :=
  ∀ (x : Nibble) (kk : Byte) (s : State),
    decodeWord (formXkk 0xC x kk) = .rnd x kk ∧
    (Completes (.rnd x kk) s fun t =>
      (∀ k, (t.reg x).getLsbD k = true ↔ s.rnd.getLsbD k = true ∧ kk.getLsbD k = true) ∧
      WritesReg x (t.reg x) s t ∧ Leaves (s.pc + 2) .continue t ∧ Frame [.regs] s t)

/-! ## The address register and memory -/

/-- Annn (R140). -/
def Obligations.LoadIndex : Prop :=
  ∀ (nnn : Addr) (s : State),
    decodeWord (formNnn 0xA nnn) = .ldI nnn ∧
    (Completes (.ldI nnn) s fun t =>
      t.i.toNat = nnn.toNat ∧ Leaves (s.pc + 2) .continue t ∧ Frame [.index] s t)

/-- Fx1E (R141): `I` keeps the sum modulo 2^16, never masked to 12 bits, and VF is 1 exactly when the untruncated sum is
above 0xFFF; with `x` = 15 the old VF is added first. The reduction modulo 2^16 is the spec's decision D2 (log 20). -/
def Obligations.AddIndexRangeFlag : Prop :=
  ∀ (x : Nibble) (s : State),
    decodeWord (formXkk 0xF x 0x1E) = .addI x ∧
    (Completes (.addI x) s fun t =>
      t.i.toNat = (s.i.toNat + (s.reg x).toNat) % 65536 ∧
      WritesReg 0xF (if s.i.toNat + (s.reg x).toNat > 0xFFF then 1 else 0) s t ∧
      Leaves (s.pc + 2) .continue t ∧ Frame [.regs, .index] s t)

/-- Fx29 (R142): `I` is five times all eight bits of Vx; the choice against the low nibble is the spec's (C3, D9; log 16). -/
def Obligations.GlyphAddress : Prop :=
  ∀ (x : Nibble) (s : State),
    decodeWord (formXkk 0xF x 0x29) = .ldF x ∧
    (Completes (.ldF x) s fun t =>
      t.i.toNat = 5 * (s.reg x).toNat ∧ Leaves (s.pc + 2) .continue t ∧ Frame [.index] s t)

/-- Fx33 (R143): when the three addresses lie in memory, the bytes at `I`, `I+1`, `I+2` are the decimal digits of Vx and
every other byte, every register and `I` are unchanged; else AddressOutOfRange and nothing changes, which is the spec's
decision D6 (R60, R174; log 14). -/
def Obligations.StoreDecimalDigits : Prop :=
  ∀ (x : Nibble) (s : State),
    decodeWord (formXkk 0xF x 0x33) = .ldB x ∧
    (s.i.toNat + 2 ≤ 4095 → Completes (.ldB x) s fun t =>
      (t.mem.byteAt s.i.toNat).toNat = (s.reg x).toNat / 100 ∧
      (t.mem.byteAt (s.i.toNat + 1)).toNat = (s.reg x).toNat / 10 % 10 ∧
      (t.mem.byteAt (s.i.toNat + 2)).toNat = (s.reg x).toNat % 10 ∧
      (∀ a, a < s.i.toNat ∨ s.i.toNat + 2 < a → t.mem.byteAt a = s.mem.byteAt a) ∧
      Leaves (s.pc + 2) .continue t ∧ Frame [.memory] s t) ∧
    (s.i.toNat + 2 > 4095 → Faults (.ldB x) s .addressOutOfRange)

/-- Fx55 (R144): when the range lies in memory, the byte at `I + r` is V[r] for each register up to x and every other byte,
every register and `I` are unchanged; else AddressOutOfRange and nothing changes. That `I` stays is the spec's decision D24
(log 22), that the fault changes nothing D6 (R60, R174; log 14). -/
def Obligations.StoreRegisters : Prop :=
  ∀ (x : Nibble) (s : State),
    decodeWord (formXkk 0xF x 0x55) = .ldMemVx x ∧
    (s.i.toNat + x.toNat ≤ 4095 → Completes (.ldMemVx x) s fun t =>
      (∀ r : Nibble, r.toNat ≤ x.toNat → t.mem.byteAt (s.i.toNat + r.toNat) = s.reg r) ∧
      (∀ a, a < s.i.toNat ∨ s.i.toNat + x.toNat < a → t.mem.byteAt a = s.mem.byteAt a) ∧
      Leaves (s.pc + 2) .continue t ∧ Frame [.memory] s t) ∧
    (s.i.toNat + x.toNat > 4095 → Faults (.ldMemVx x) s .addressOutOfRange)

/-- Fx65 (R145): when the range lies in memory, each register up to x holds the byte at its own offset from `I` and the
registers above x, memory and `I` are unchanged; else AddressOutOfRange and nothing changes. That `I` stays is the spec's
decision D24 (log 22), that the fault changes nothing D6 (R60, R174; log 14). -/
def Obligations.LoadRegisters : Prop :=
  ∀ (x : Nibble) (s : State),
    decodeWord (formXkk 0xF x 0x65) = .ldVxMem x ∧
    (s.i.toNat + x.toNat ≤ 4095 → Completes (.ldVxMem x) s fun t =>
      (∀ r : Nibble, r.toNat ≤ x.toNat → t.reg r = s.mem.byteAt (s.i.toNat + r.toNat)) ∧
      (∀ r : Nibble, r.toNat > x.toNat → t.reg r = s.reg r) ∧
      Leaves (s.pc + 2) .continue t ∧ Frame [.regs] s t) ∧
    (s.i.toNat + x.toNat > 4095 → Faults (.ldVxMem x) s .addressOutOfRange)

/-- Storing V0..Vx (R144) and loading V0..Vx back (R145) from the `I` the store left, whatever the registers hold in between,
restores them. It rests on the spec's decision D24, that the store leaves `I` as it was (R146; log 22). -/
def Obligations.StoreLoadRoundTrip : Prop :=
  ∀ (x : Nibble) (s t u : State), s.i.toNat + x.toNat ≤ 4095 → exec (.ldMemVx x) s = .next t →
    u.mem = t.mem → u.i = t.i →
    Completes (.ldVxMem x) u fun w => ∀ r : Nibble, r.toNat ≤ x.toNat → w.reg r = s.reg r

/-- Two bytes stored by Fx55 are the word a fetch from there sees at once, the lower-numbered register its high byte (R53,
R64). -/
def Obligations.StoredWordIsFetched : Prop :=
  ∀ (x : Nibble) (s t : State), 1 ≤ x.toNat → s.i.toNat + x.toNat ≤ 4095 → exec (.ldMemVx x) s = .next t →
    ∃ w, t.mem.fetch s.i.toNat = .ok w ∧ w.toNat = 256 * (s.reg 0).toNat + (s.reg 1).toNat

/-! ## Display -/

/-- 00E0 (R150): every pixel is 0 whatever it was, and the status is NeedsRedraw. -/
def Obligations.ClearScreen : Prop :=
  decodeWord 0x00E0 = .cls ∧
  ∀ s : State, Completes .cls s fun t =>
    (∀ p, t.fb.lit p = false) ∧ Leaves (s.pc + 2) .needsRedraw t ∧ Frame [.screen] s t

/-- Dxyn (R151, R152, R153, R154): when the sprite's bytes lie in memory, exactly the pixels a 1 bit lands on change, VF is
1 exactly when one of them was 1, and nothing else changes; a sprite of no rows never faults and clears VF. Else
AddressOutOfRange and nothing changes. The order of the bits in a row is the spec's decision D10 (log 17), the case of no rows
D25 (R153; log 23), the absence of a partial effect D6 (log 14). -/
def Obligations.DrawXorsAndDetectsCollision : Prop :=
  ∀ (x y n : Nibble) (s : State),
    decodeWord (formXyn 0xD x y n) = .drw x y n ∧
    (SpriteFits s n → Completes (.drw x y n) s fun t =>
      (∀ p, SpriteCovers s x y n p → t.fb.lit p = !s.fb.lit p) ∧
      (∀ p, ¬SpriteCovers s x y n p → t.fb.lit p = s.fb.lit p) ∧
      ((∃ p, SpriteCovers s x y n p ∧ s.fb.lit p = true) → t.reg 0xF = 1) ∧
      ((¬∃ p, SpriteCovers s x y n p ∧ s.fb.lit p = true) → t.reg 0xF = 0) ∧
      (∀ r, r ≠ 0xF → t.reg r = s.reg r) ∧
      Leaves (s.pc + 2) .needsRedraw t ∧ Frame [.regs, .screen] s t) ∧
    (¬SpriteFits s n → Faults (.drw x y n) s .addressOutOfRange)

/-- Drawing the same sprite twice at the same place returns every pixel to its value before the first draw, and the second
draw reports a collision exactly when the first set some pixel (R157, C14). The second draw starts from any state with the
first's framebuffer and the same sprite, `I` and coordinates; bit order D10 (log 17). -/
def Obligations.DrawTwiceRestores : Prop :=
  ∀ (x y x' y' n : Nibble) (s t u : State), SpriteFits s n → exec (.drw x y n) s = .next t →
    u.fb = t.fb → u.mem = s.mem → u.i = s.i → u.reg x' = s.reg x → u.reg y' = s.reg y →
    Completes (.drw x' y' n) u fun w =>
      (∀ p, w.fb.lit p = s.fb.lit p) ∧
      (w.reg 0xF = 1 ↔ ∃ p, SpriteCovers s x y n p ∧ s.fb.lit p = false)

/-! ## Keypad and timers -/

/-- Ex9E and ExA1 (R160, R161, R166): the skip on the pressed key, all eight bits of Vx compared; no key matches none. The
two readings (no key, Vx above 15) are the spec's decisions D11, D12 (log 18). -/
def Obligations.SkipsOnKey : Prop :=
  ∀ (x : Nibble) (s : State),
    decodeWord (formXkk 0xE x 0x9E) = .skp x ∧ decodeWord (formXkk 0xE x 0xA1) = .sknp x ∧
    (∀ k, s.key = some k → k.toNat = (s.reg x).toNat →
      (Completes (.skp x) s fun t => Leaves (s.pc + 4) .continue t ∧ Frame [] s t) ∧
      (Completes (.sknp x) s fun t => Leaves (s.pc + 2) .continue t ∧ Frame [] s t)) ∧
    ((∀ k, s.key = some k → k.toNat ≠ (s.reg x).toNat) →
      (Completes (.skp x) s fun t => Leaves (s.pc + 2) .continue t ∧ Frame [] s t) ∧
      (Completes (.sknp x) s fun t => Leaves (s.pc + 4) .continue t ∧ Frame [] s t))

/-- Fx0A (R162): without a key the step answers AwaitingKey and changes nothing, PC included; with key k, Vx holds k and PC
advances once. -/
def Obligations.KeyWait : Prop :=
  ∀ (x : Nibble) (s : State),
    decodeWord (formXkk 0xF x 0x0A) = .ldVxK x ∧
    (s.key = none → exec (.ldVxK x) s = .next { s with output := .status .awaitingKey }) ∧
    (∀ k, s.key = some k → Completes (.ldVxK x) s fun t =>
      (t.reg x).toNat = k.toNat ∧ WritesReg x (t.reg x) s t ∧ Leaves (s.pc + 2) .continue t ∧ Frame [.regs] s t)

/-- Fx07, Fx15 and Fx18 (R163, R164, R165): the accesses to the timers. -/
def Obligations.TimerAccess : Prop :=
  ∀ (x : Nibble) (s : State),
    decodeWord (formXkk 0xF x 0x07) = .ldVxDt x ∧ decodeWord (formXkk 0xF x 0x15) = .ldDtVx x ∧
    decodeWord (formXkk 0xF x 0x18) = .ldStVx x ∧
    (Completes (.ldVxDt x) s fun t => WritesReg x s.dt s t ∧ Leaves (s.pc + 2) .continue t ∧ Frame [.regs] s t) ∧
    (Completes (.ldDtVx x) s fun t => t.dt = s.reg x ∧ Leaves (s.pc + 2) .continue t ∧ Frame [.delay] s t) ∧
    (Completes (.ldStVx x) s fun t => t.st = s.reg x ∧ Leaves (s.pc + 2) .continue t ∧ Frame [.sound] s t)

/-! ## The schedule the model draws -/

/-- With no event fixed, a step is exactly some number of Tick events, each with its own `sound_active`, and then a Step with
some key and some random byte, as if the driver had fixed them (R6, R185). The drawn schedule is the model's (log 2, 3, 33). -/
def Obligations.DrawnStepIsItsEvents : Prop :=
  ∀ s : State, s.pending = [] →
    ∃ (key : Option Nibble) (rnd : Byte) (n : Nat),
      step s = stepN (n + 1) { s with pending := List.replicate n .tick ++ [.step key rnd], draws := s.draws + 1 } ∧
      ∀ t, step s = .next t → t.sounds = s.sounds ++ (List.range n).map fun k => decide (k < s.st.toNat)
end

