-- ==== Sys2Proof/Laws/Decode.lean ====
section
/-! SUPPORT. The fields of a word laid out by a format, and a word as the layout of its own fields (spec R71, R75). -/

namespace Sys2Proof

/-! ## Fields of a laid-out word -/

theorem toNat_append16 {m n : Nat} (a : BitVec m) (b : BitVec n) : (a ++ b).toNat = a.toNat * 2 ^ n + b.toNat := by
  rw [BitVec.toNat_append, Nat.shiftLeft_eq, Nat.mul_comm, ← Nat.two_pow_add_eq_or_of_lt b.isLt]

theorem formNnn_toNat (op : Nibble) (nnn : Addr) : (formNnn op nnn).toNat = op.toNat * 4096 + nnn.toNat :=
  toNat_append16 op nnn

theorem formXkk_toNat (op x : Nibble) (kk : Byte) :
    (formXkk op x kk).toNat = op.toNat * 4096 + x.toNat * 256 + kk.toNat := by
  have h : (formXkk op x kk).toNat = (op ++ x).toNat * 2 ^ 8 + kk.toNat := toNat_append16 (op ++ x) kk
  rw [h, toNat_append16]; omega

theorem formXyn_toNat (op x y n : Nibble) :
    (formXyn op x y n).toNat = op.toNat * 4096 + x.toNat * 256 + y.toNat * 16 + n.toNat := by
  have h : (formXyn op x y n).toNat = (op ++ x ++ y).toNat * 2 ^ 4 + n.toNat := toNat_append16 (op ++ x ++ y) n
  rw [h, toNat_append16, toNat_append16]; omega

theorem fieldOp_toNat (w : Word) : (fieldOp w).toNat = w.toNat / 4096 := by
  have := w.isLt; simp only [fieldOp, BitVec.extractLsb'_toNat, Nat.shiftRight_eq_div_pow]; omega

theorem fieldX_toNat (w : Word) : (fieldX w).toNat = w.toNat / 256 % 16 := by
  simp only [fieldX, BitVec.extractLsb'_toNat, Nat.shiftRight_eq_div_pow]

theorem fieldY_toNat (w : Word) : (fieldY w).toNat = w.toNat / 16 % 16 := by
  simp only [fieldY, BitVec.extractLsb'_toNat, Nat.shiftRight_eq_div_pow]

theorem fieldN_toNat (w : Word) : (fieldN w).toNat = w.toNat % 16 := by
  simp [fieldN, BitVec.extractLsb'_toNat]

theorem fieldKk_toNat (w : Word) : (fieldKk w).toNat = w.toNat % 256 := by
  simp [fieldKk, BitVec.extractLsb'_toNat]

theorem fieldNnn_toNat (w : Word) : (fieldNnn w).toNat = w.toNat % 4096 := by
  simp [fieldNnn, BitVec.extractLsb'_toNat]

@[simp] theorem fieldOp_formNnn (op : Nibble) (nnn : Addr) : fieldOp (formNnn op nnn) = op := by
  apply BitVec.eq_of_toNat_eq; have := nnn.isLt; rw [fieldOp_toNat, formNnn_toNat]; omega

@[simp] theorem fieldNnn_formNnn (op : Nibble) (nnn : Addr) : fieldNnn (formNnn op nnn) = nnn := by
  apply BitVec.eq_of_toNat_eq; have := nnn.isLt; rw [fieldNnn_toNat, formNnn_toNat]; omega

@[simp] theorem fieldOp_formXkk (op x : Nibble) (kk : Byte) : fieldOp (formXkk op x kk) = op := by
  apply BitVec.eq_of_toNat_eq; have := x.isLt; have := kk.isLt; rw [fieldOp_toNat, formXkk_toNat]; omega

@[simp] theorem fieldX_formXkk (op x : Nibble) (kk : Byte) : fieldX (formXkk op x kk) = x := by
  apply BitVec.eq_of_toNat_eq; have := x.isLt; have := kk.isLt; rw [fieldX_toNat, formXkk_toNat]; omega

@[simp] theorem fieldKk_formXkk (op x : Nibble) (kk : Byte) : fieldKk (formXkk op x kk) = kk := by
  apply BitVec.eq_of_toNat_eq; have := kk.isLt; rw [fieldKk_toNat, formXkk_toNat]; omega

@[simp] theorem fieldOp_formXyn (op x y n : Nibble) : fieldOp (formXyn op x y n) = op := by
  apply BitVec.eq_of_toNat_eq; have := x.isLt; have := y.isLt; have := n.isLt
  rw [fieldOp_toNat, formXyn_toNat]; omega

@[simp] theorem fieldX_formXyn (op x y n : Nibble) : fieldX (formXyn op x y n) = x := by
  apply BitVec.eq_of_toNat_eq; have := x.isLt; have := y.isLt; have := n.isLt
  rw [fieldX_toNat, formXyn_toNat]; omega

@[simp] theorem fieldY_formXyn (op x y n : Nibble) : fieldY (formXyn op x y n) = y := by
  apply BitVec.eq_of_toNat_eq; have := y.isLt; have := n.isLt
  rw [fieldY_toNat, formXyn_toNat]; omega

@[simp] theorem fieldN_formXyn (op x y n : Nibble) : fieldN (formXyn op x y n) = n := by
  apply BitVec.eq_of_toNat_eq; have := n.isLt
  rw [fieldN_toNat, formXyn_toNat]; omega

/-! ## A word as the layout of its fields -/

theorem word_eq_formNnn (w : Word) : formNnn (fieldOp w) (fieldNnn w) = w := by
  apply BitVec.eq_of_toNat_eq; rw [formNnn_toNat, fieldOp_toNat, fieldNnn_toNat]; omega

theorem word_eq_formXkk (w : Word) : formXkk (fieldOp w) (fieldX w) (fieldKk w) = w := by
  apply BitVec.eq_of_toNat_eq; rw [formXkk_toNat, fieldOp_toNat, fieldX_toNat, fieldKk_toNat]; omega

theorem word_eq_formXyn (w : Word) : formXyn (fieldOp w) (fieldX w) (fieldY w) (fieldN w) = w := by
  apply BitVec.eq_of_toNat_eq
  rw [formXyn_toNat, fieldOp_toNat, fieldX_toNat, fieldY_toNat, fieldN_toNat]; omega

/-! ## Bytes -/

theorem wordOfBytes_toNat (hi lo : Byte) : (wordOfBytes hi lo).toNat = 256 * hi.toNat + lo.toNat := by
  have h : (wordOfBytes hi lo).toNat = hi.toNat * 2 ^ 8 + lo.toNat := toNat_append16 hi lo
  omega

/-- The two bytes memory holds of a word make the word (R53). -/
theorem wordOfBytes_bytesOfWord (w : Word) : wordOfBytes (w.extractLsb' 8 8) (w.extractLsb' 0 8) = w := by
  apply BitVec.eq_of_toNat_eq
  have := w.isLt
  rw [wordOfBytes_toNat, BitVec.extractLsb'_toNat, BitVec.extractLsb'_toNat, Nat.shiftRight_eq_div_pow]
  simp only [Nat.shiftRight_zero]; omega

/-! ## Masks -/

theorem formXyn_and (a b c d a' b' c' d' : Nibble) :
    formXyn a b c d &&& formXyn a' b' c' d' = formXyn (a &&& a') (b &&& b') (c &&& c') (d &&& d') := by
  have h : ((a ++ b ++ c ++ d) &&& (a' ++ b' ++ c' ++ d') : BitVec (4 + 4 + 4 + 4)) =
      (a &&& a') ++ (b &&& b') ++ (c &&& c') ++ (d &&& d') := by
    rw [BitVec.and_append, BitVec.and_append, BitVec.and_append]
  exact h

theorem nibble_and_zero (a : Nibble) : a &&& 0x0 = 0x0 := BitVec.and_zero
theorem nibble_and_ones (a : Nibble) : a &&& 0xF = a := BitVec.and_allOnes (w := 4)

/-- The mask 0xF000 keeps `op` (R76). -/
theorem and_F000 (w : Word) : w &&& 0xF000 = formXyn (fieldOp w) 0x0 0x0 0x0 := by
  conv_lhs => rw [← word_eq_formXyn w, show (0xF000 : Word) = formXyn 0xF 0x0 0x0 0x0 from by decide]
  rw [formXyn_and]; simp only [nibble_and_zero, nibble_and_ones]

/-- The mask 0xF00F keeps `op` and `n` (R76). -/
theorem and_F00F (w : Word) : w &&& 0xF00F = formXyn (fieldOp w) 0x0 0x0 (fieldN w) := by
  conv_lhs => rw [← word_eq_formXyn w, show (0xF00F : Word) = formXyn 0xF 0x0 0x0 0xF from by decide]
  rw [formXyn_and]; simp only [nibble_and_zero, nibble_and_ones]

/-- The mask 0xF0FF keeps `op` and `kk` (R76). -/
theorem and_F0FF (w : Word) : w &&& 0xF0FF = formXkk (fieldOp w) 0x0 (fieldKk w) := by
  have h : w &&& 0xF0FF = formXyn (fieldOp w) 0x0 (fieldY w) (fieldN w) := by
    conv_lhs => rw [← word_eq_formXyn w, show (0xF0FF : Word) = formXyn 0xF 0x0 0xF 0xF from by decide]
    rw [formXyn_and]; simp only [nibble_and_zero, nibble_and_ones]
  rw [h]
  apply BitVec.eq_of_toNat_eq
  rw [formXyn_toNat, formXkk_toNat, fieldY_toNat, fieldN_toNat, fieldKk_toNat]; omega

/-- The mask 0xFFFF keeps the whole word (R76). -/
theorem and_FFFF (w : Word) : w &&& 0xFFFF = w := BitVec.and_allOnes (w := 16)

end Sys2Proof
end

