-- ==== Sys2Proof/Laws/Memory.lean ====
section
/-! SUPPORT. What the memory operations do, said once: every read after a write, for any list of cells, and that each
operation keeps the canonical form. -/

namespace Sys2Proof.Machine

open Sys2Proof

/-! ## Reads after writes -/

theorem Memory.byteAt_remove (m : Memory) (a b : Nat) :
    (m.remove a).byteAt b = if b = a then unlistedByte b else m.byteAt b := by
  induction m with
  | nil => simp [Memory.remove, Memory.byteAt]
  | cons c m ih =>
    have ih' : Memory.byteAt (List.filter (fun c => decide (c.1 ≠ a)) m) b = _ := ih
    simp only [Memory.remove, List.filter_cons]
    by_cases hc : c.1 = a
    · simp only [hc, ne_eq, not_true_eq_false, decide_false, Bool.false_eq_true, if_false]
      rw [show (fun c : Host.Cell => decide (¬c.1 = a)) = fun c => decide (c.1 ≠ a) from rfl, ih']
      by_cases hb : b = a
      · simp [hb]
      · simp [hb, Memory.byteAt, hc, Ne.symm hb]
    · simp only [ne_eq, hc, not_false_eq_true, decide_true, if_true, Memory.byteAt]
      by_cases hcb : c.1 = b
      · have : b ≠ a := hcb ▸ hc
        simp [hcb, this]
      · rw [if_neg hcb, if_neg hcb]; exact ih'

theorem Memory.byteAt_place (a : Nat) (v : Byte) (m : Memory) (h : ∀ c ∈ m, c.1 ≠ a) (b : Nat) :
    (Memory.place a v m).byteAt b = if b = a then v else m.byteAt b := by
  induction m with
  | nil =>
    by_cases hb : b = a
    · simp [Memory.place, Memory.byteAt, hb]
    · simp [Memory.place, Memory.byteAt, hb, Ne.symm hb]
  | cons c m ih =>
    have hc : c.1 ≠ a := h c (by simp)
    simp only [Memory.place]
    split
    · by_cases hb : b = a
      · simp [Memory.byteAt, hb]
      · simp [Memory.byteAt, hb, Ne.symm hb]
    · simp only [Memory.byteAt]
      by_cases hcb : c.1 = b
      · have : b ≠ a := hcb ▸ hc
        simp [hcb, this]
      · rw [if_neg hcb, if_neg hcb]; exact ih fun d hd => h d (by simp [hd])

/-- A read after the write of one byte, on any list of cells: the byte written at its address, the old byte elsewhere. -/
@[simp] theorem Memory.byteAt_setByte (m : Memory) (a : Nat) (v : Byte) (b : Nat) :
    (m.setByte a v).byteAt b = if b = a then v else m.byteAt b := by
  unfold Memory.setByte
  split
  · next hv => rw [Memory.byteAt_remove]; split <;> simp_all
  · rw [Memory.byteAt_place _ _ _ (by simp [Memory.remove]), Memory.byteAt_remove]
    split <;> rfl

/-- A read after the writes of consecutive bytes: the run's own byte inside it, the old byte outside. -/
theorem Memory.byteAt_setBytes (bs : List Byte) :
    ∀ (m : Memory) (a b : Nat), (m.setBytes a bs).byteAt b =
      if a ≤ b ∧ b < a + bs.length then bs.getD (b - a) 0 else m.byteAt b := by
  induction bs with
  | nil => intro m a b; rw [if_neg (by simp)]; rfl
  | cons v bs ih =>
    intro m a b
    simp only [Memory.setBytes, List.length_cons]
    rw [ih, Memory.byteAt_setByte]
    by_cases h1 : b = a
    · rw [if_neg (by omega), if_pos h1, if_pos (by omega)]; simp [h1]
    · rw [if_neg h1]
      by_cases h2 : a + 1 ≤ b ∧ b < a + 1 + bs.length
      · rw [if_pos h2, if_pos (by omega)]
        obtain ⟨j, hj⟩ : ∃ j, b - a = j + 1 := ⟨b - a - 1, by omega⟩
        have : b - (a + 1) = j := by omega
        simp [hj, this]
      · rw [if_neg h2, if_neg (by omega)]

/-! ## The canonical form -/

theorem Memory.wf_nil : Memory.wf [] := by simp [Memory.wf]

theorem Memory.wf_remove {m : Memory} (h : m.wf) (a : Nat) : (m.remove a).wf :=
  ⟨h.1.filter _, fun c hc => h.2 c (List.mem_of_mem_filter hc)⟩

theorem Memory.mem_place {a : Nat} {v : Byte} {m : Memory} {c : Host.Cell} :
    c ∈ Memory.place a v m ↔ c = (a, v) ∨ c ∈ m := by
  induction m with
  | nil => simp [Memory.place]
  | cons d m ih => simp only [Memory.place]; split <;> simp [ih]; tauto

theorem Memory.wf_place {m : Memory} (h : m.wf) {a : Nat} {v : Byte} (ha : a < Config.memSize)
    (hv : v ≠ unlistedByte a) (hm : ∀ c ∈ m, c.1 ≠ a) : (Memory.place a v m).wf := by
  refine ⟨?_, fun c hc => ?_⟩
  · obtain ⟨hs, -⟩ := h
    induction m with
    | nil => simp [Memory.place]
    | cons d m ih =>
      rw [List.pairwise_cons] at hs
      simp only [Memory.place]
      split
      · next hd =>
        refine List.pairwise_cons.2 ⟨fun c hc => ?_, List.pairwise_cons.2 hs⟩
        rcases List.mem_cons.1 hc with rfl | hc
        · exact hd
        · exact lt_trans hd (hs.1 c hc)
      · next hd =>
        refine List.pairwise_cons.2 ⟨fun c hc => ?_, ih (fun c hc => hm c (List.mem_cons_of_mem _ hc)) hs.2⟩
        rcases Memory.mem_place.1 hc with rfl | hc
        · have := hm d (by simp); omega
        · exact hs.1 c hc
  · rcases Memory.mem_place.1 hc with rfl | hc
    · exact ⟨ha, hv⟩
    · exact h.2 c hc

/-- The write of one byte keeps the canonical form. -/
theorem Memory.wf_setByte {m : Memory} (h : m.wf) {a : Nat} (ha : a < Config.memSize) (v : Byte) :
    (m.setByte a v).wf := by
  unfold Memory.setByte
  split
  · exact Memory.wf_remove h a
  · next hv => exact Memory.wf_place (Memory.wf_remove h a) ha hv (by simp [Memory.remove])

/-- The writes of consecutive bytes keep the canonical form. -/
theorem Memory.wf_setBytes (bs : List Byte) :
    ∀ {m : Memory} {a : Nat}, m.wf → a + bs.length ≤ Config.memSize → (m.setBytes a bs).wf := by
  induction bs with
  | nil => intro m a h _; exact h
  | cons v bs ih =>
    intro m a h ha
    simp only [List.length_cons] at ha
    exact ih (Memory.wf_setByte h (by omega) v) (by omega)

/-- A canonical memory lists its cells at their addresses: reading the address of a cell gives its byte. -/
theorem Memory.byteAt_of_mem {m : Memory} (h : m.Pairwise fun c d => c.1 < d.1) {c : Host.Cell} (hc : c ∈ m) :
    m.byteAt c.1 = c.2 := by
  induction m with
  | nil => cases hc
  | cons d m ih =>
    rw [List.pairwise_cons] at h
    rcases List.mem_cons.1 hc with rfl | hc
    · simp [Memory.byteAt]
    · have := h.1 c hc
      simp only [Memory.byteAt]; rw [if_neg (by omega)]; exact ih h.2 hc

/-- An address with no cell reads as the unlisted byte. -/
theorem Memory.byteAt_of_not_mem {m : Memory} {a : Nat} (h : ∀ c ∈ m, c.1 ≠ a) : m.byteAt a = unlistedByte a := by
  induction m with
  | nil => rfl
  | cons d m ih =>
    simp only [Memory.byteAt]; rw [if_neg (h d (by simp))]; exact ih fun c hc => h c (by simp [hc])

theorem Memory.mem_ofFn {f : Nat → Byte} {c : Host.Cell} :
    c ∈ Memory.ofFn f ↔ c.1 < Config.memSize ∧ f c.1 ≠ unlistedByte c.1 ∧ c.2 = f c.1 := by
  simp only [Memory.ofFn, List.mem_filterMap, List.mem_range]
  constructor
  · rintro ⟨a, ha, h⟩
    split at h
    · cases h
    · cases h; exact ⟨ha, ‹_›, rfl⟩
  · rintro ⟨h1, h2, h3⟩
    exact ⟨c.1, h1, by rw [if_neg h2, ← h3]⟩

/-- The memory built from a function is canonical. -/
theorem Memory.wf_ofFn (f : Nat → Byte) : (Memory.ofFn f).wf := by
  refine ⟨?_, fun c hc => ?_⟩
  · refine List.Pairwise.filterMap _ ?_ (List.pairwise_lt_range (n := Config.memSize))
    intro a b hab c hc d hd
    split at hc <;> split at hd <;> simp_all
    obtain rfl := hc; obtain rfl := hd; exact hab
  · obtain ⟨h1, h2, h3⟩ := Memory.mem_ofFn.1 hc
    exact ⟨h1, h3 ▸ h2⟩

/-- The memory built from a function reads as the function at every address. -/
theorem Memory.byteAt_ofFn (f : Nat → Byte) {a : Nat} (ha : a < Config.memSize) : (Memory.ofFn f).byteAt a = f a := by
  by_cases h : f a = unlistedByte a
  · rw [h]
    refine Memory.byteAt_of_not_mem fun c hc e => ?_
    obtain ⟨-, h2, -⟩ := Memory.mem_ofFn.1 hc
    exact h2 (e ▸ h)
  · exact Memory.byteAt_of_mem (Memory.wf_ofFn f).1 (c := (a, f a)) (Memory.mem_ofFn.2 ⟨ha, h, rfl⟩)

/-! ## The checked accesses, said once each -/

/-- Everything a load can do: fault when its range reaches above 4095, else give the bytes in order. -/
theorem Memory.load_cases (m : Memory) (a n : Nat) :
    ((n > 0 ∧ a + n - 1 > 4095) ∧ m.load a n = .error .addressOutOfRange) ∨
    (¬(n > 0 ∧ a + n - 1 > 4095) ∧ m.load a n = .ok ((List.range n).map fun k => m.byteAt (a + k))) := by
  unfold Memory.load outOfRange
  by_cases h : n > 0 ∧ a + n - 1 > 4095
  · exact .inl ⟨h, by simp [h]⟩
  · exact .inr ⟨h, by simp only [h, decide_false, Bool.false_eq_true, if_false]⟩

/-- Everything a store can do: fault when its range reaches above 4095, else write the bytes in order. -/
theorem Memory.store_cases (m : Memory) (a : Nat) (bs : List Byte) :
    ((bs.length > 0 ∧ a + bs.length - 1 > 4095) ∧ m.store a bs = .error .addressOutOfRange) ∨
    (¬(bs.length > 0 ∧ a + bs.length - 1 > 4095) ∧ m.store a bs = .ok (m.setBytes a bs)) := by
  unfold Memory.store outOfRange
  by_cases h : bs.length > 0 ∧ a + bs.length - 1 > 4095
  · exact .inl ⟨h, by simp [h]⟩
  · exact .inr ⟨h, by simp only [h, decide_false, Bool.false_eq_true, if_false]⟩

/-- A store that succeeds keeps the canonical form. -/
theorem Memory.wf_store {m m' : Memory} {a : Nat} {bs : List Byte} (h : m.wf) (hs : m.store a bs = .ok m') : m'.wf := by
  rcases Memory.store_cases m a bs with ⟨-, e⟩ | ⟨hr, e⟩ <;> rw [e] at hs
  · cases hs
  · cases hs
    rcases bs with _ | ⟨b, bs⟩
    · exact h
    · exact Memory.wf_setBytes _ h (by simp only [Config.memSize, List.length_cons] at *; omega)

end Sys2Proof.Machine
end

