-- ==== Sys2Proof/Laws/State.lean ====
section
/-! SUPPORT. The field lemmas of the named state updates: one per field an update leaves alone, true by rfl, so that no later
proof unfolds a record update. -/

namespace Sys2Proof.Machine

open Sys2Proof

/-! ## Fields an update leaves alone -/

@[simp] theorem State.setReg_i (s : State) (x : Nibble) (b : Byte) : (s.setReg x b).i = s.i := rfl
@[simp] theorem State.setReg_pc (s : State) (x : Nibble) (b : Byte) : (s.setReg x b).pc = s.pc := rfl
@[simp] theorem State.setReg_stack (s : State) (x : Nibble) (b : Byte) : (s.setReg x b).stack = s.stack := rfl
@[simp] theorem State.setReg_sp (s : State) (x : Nibble) (b : Byte) : (s.setReg x b).sp = s.sp := rfl
@[simp] theorem State.setReg_dt (s : State) (x : Nibble) (b : Byte) : (s.setReg x b).dt = s.dt := rfl
@[simp] theorem State.setReg_st (s : State) (x : Nibble) (b : Byte) : (s.setReg x b).st = s.st := rfl
@[simp] theorem State.setReg_fb (s : State) (x : Nibble) (b : Byte) : (s.setReg x b).fb = s.fb := rfl
@[simp] theorem State.setReg_mem (s : State) (x : Nibble) (b : Byte) : (s.setReg x b).mem = s.mem := rfl
@[simp] theorem State.setReg_fault (s : State) (x : Nibble) (b : Byte) : (s.setReg x b).fault = s.fault := rfl
@[simp] theorem State.setReg_key (s : State) (x : Nibble) (b : Byte) : (s.setReg x b).key = s.key := rfl
@[simp] theorem State.setReg_rnd (s : State) (x : Nibble) (b : Byte) : (s.setReg x b).rnd = s.rnd := rfl
@[simp] theorem State.setReg_output (s : State) (x : Nibble) (b : Byte) : (s.setReg x b).output = s.output := rfl
@[simp] theorem State.setReg_pending (s : State) (x : Nibble) (b : Byte) : (s.setReg x b).pending = s.pending := rfl
@[simp] theorem State.setReg_draws (s : State) (x : Nibble) (b : Byte) : (s.setReg x b).draws = s.draws := rfl
@[simp] theorem State.setReg_sounds (s : State) (x : Nibble) (b : Byte) : (s.setReg x b).sounds = s.sounds := rfl

@[simp] theorem State.setRegFlag_i (s : State) (x : Nibble) (b f : Byte) : (s.setRegFlag x b f).i = s.i := rfl
@[simp] theorem State.setRegFlag_pc (s : State) (x : Nibble) (b f : Byte) : (s.setRegFlag x b f).pc = s.pc := rfl
@[simp] theorem State.setRegFlag_stack (s : State) (x : Nibble) (b f : Byte) : (s.setRegFlag x b f).stack = s.stack := rfl
@[simp] theorem State.setRegFlag_sp (s : State) (x : Nibble) (b f : Byte) : (s.setRegFlag x b f).sp = s.sp := rfl
@[simp] theorem State.setRegFlag_dt (s : State) (x : Nibble) (b f : Byte) : (s.setRegFlag x b f).dt = s.dt := rfl
@[simp] theorem State.setRegFlag_st (s : State) (x : Nibble) (b f : Byte) : (s.setRegFlag x b f).st = s.st := rfl
@[simp] theorem State.setRegFlag_fb (s : State) (x : Nibble) (b f : Byte) : (s.setRegFlag x b f).fb = s.fb := rfl
@[simp] theorem State.setRegFlag_mem (s : State) (x : Nibble) (b f : Byte) : (s.setRegFlag x b f).mem = s.mem := rfl
@[simp] theorem State.setRegFlag_fault (s : State) (x : Nibble) (b f : Byte) : (s.setRegFlag x b f).fault = s.fault := rfl
@[simp] theorem State.setRegFlag_key (s : State) (x : Nibble) (b f : Byte) : (s.setRegFlag x b f).key = s.key := rfl
@[simp] theorem State.setRegFlag_rnd (s : State) (x : Nibble) (b f : Byte) : (s.setRegFlag x b f).rnd = s.rnd := rfl
@[simp] theorem State.setRegFlag_output (s : State) (x : Nibble) (b f : Byte) : (s.setRegFlag x b f).output = s.output := rfl
@[simp] theorem State.setRegFlag_pending (s : State) (x : Nibble) (b f : Byte) : (s.setRegFlag x b f).pending = s.pending := rfl
@[simp] theorem State.setRegFlag_draws (s : State) (x : Nibble) (b f : Byte) : (s.setRegFlag x b f).draws = s.draws := rfl
@[simp] theorem State.setRegFlag_sounds (s : State) (x : Nibble) (b f : Byte) : (s.setRegFlag x b f).sounds = s.sounds := rfl

@[simp] theorem State.advance_v (s : State) : (s.advance).v = s.v := rfl
@[simp] theorem State.advance_i (s : State) : (s.advance).i = s.i := rfl
@[simp] theorem State.advance_stack (s : State) : (s.advance).stack = s.stack := rfl
@[simp] theorem State.advance_sp (s : State) : (s.advance).sp = s.sp := rfl
@[simp] theorem State.advance_dt (s : State) : (s.advance).dt = s.dt := rfl
@[simp] theorem State.advance_st (s : State) : (s.advance).st = s.st := rfl
@[simp] theorem State.advance_fb (s : State) : (s.advance).fb = s.fb := rfl
@[simp] theorem State.advance_mem (s : State) : (s.advance).mem = s.mem := rfl
@[simp] theorem State.advance_fault (s : State) : (s.advance).fault = s.fault := rfl
@[simp] theorem State.advance_key (s : State) : (s.advance).key = s.key := rfl
@[simp] theorem State.advance_rnd (s : State) : (s.advance).rnd = s.rnd := rfl
@[simp] theorem State.advance_output (s : State) : (s.advance).output = s.output := rfl
@[simp] theorem State.advance_pending (s : State) : (s.advance).pending = s.pending := rfl
@[simp] theorem State.advance_draws (s : State) : (s.advance).draws = s.draws := rfl
@[simp] theorem State.advance_sounds (s : State) : (s.advance).sounds = s.sounds := rfl

@[simp] theorem State.skipIf_v (s : State) (c : Bool) : (s.skipIf c).v = s.v := rfl
@[simp] theorem State.skipIf_i (s : State) (c : Bool) : (s.skipIf c).i = s.i := rfl
@[simp] theorem State.skipIf_stack (s : State) (c : Bool) : (s.skipIf c).stack = s.stack := rfl
@[simp] theorem State.skipIf_sp (s : State) (c : Bool) : (s.skipIf c).sp = s.sp := rfl
@[simp] theorem State.skipIf_dt (s : State) (c : Bool) : (s.skipIf c).dt = s.dt := rfl
@[simp] theorem State.skipIf_st (s : State) (c : Bool) : (s.skipIf c).st = s.st := rfl
@[simp] theorem State.skipIf_fb (s : State) (c : Bool) : (s.skipIf c).fb = s.fb := rfl
@[simp] theorem State.skipIf_mem (s : State) (c : Bool) : (s.skipIf c).mem = s.mem := rfl
@[simp] theorem State.skipIf_fault (s : State) (c : Bool) : (s.skipIf c).fault = s.fault := rfl
@[simp] theorem State.skipIf_key (s : State) (c : Bool) : (s.skipIf c).key = s.key := rfl
@[simp] theorem State.skipIf_rnd (s : State) (c : Bool) : (s.skipIf c).rnd = s.rnd := rfl
@[simp] theorem State.skipIf_output (s : State) (c : Bool) : (s.skipIf c).output = s.output := rfl
@[simp] theorem State.skipIf_pending (s : State) (c : Bool) : (s.skipIf c).pending = s.pending := rfl
@[simp] theorem State.skipIf_draws (s : State) (c : Bool) : (s.skipIf c).draws = s.draws := rfl
@[simp] theorem State.skipIf_sounds (s : State) (c : Bool) : (s.skipIf c).sounds = s.sounds := rfl

@[simp] theorem State.answer_v (s : State) (o : Output) : (s.answer o).v = s.v := rfl
@[simp] theorem State.answer_i (s : State) (o : Output) : (s.answer o).i = s.i := rfl
@[simp] theorem State.answer_pc (s : State) (o : Output) : (s.answer o).pc = s.pc := rfl
@[simp] theorem State.answer_stack (s : State) (o : Output) : (s.answer o).stack = s.stack := rfl
@[simp] theorem State.answer_sp (s : State) (o : Output) : (s.answer o).sp = s.sp := rfl
@[simp] theorem State.answer_dt (s : State) (o : Output) : (s.answer o).dt = s.dt := rfl
@[simp] theorem State.answer_st (s : State) (o : Output) : (s.answer o).st = s.st := rfl
@[simp] theorem State.answer_fb (s : State) (o : Output) : (s.answer o).fb = s.fb := rfl
@[simp] theorem State.answer_mem (s : State) (o : Output) : (s.answer o).mem = s.mem := rfl
@[simp] theorem State.answer_fault (s : State) (o : Output) : (s.answer o).fault = s.fault := rfl
@[simp] theorem State.answer_key (s : State) (o : Output) : (s.answer o).key = s.key := rfl
@[simp] theorem State.answer_rnd (s : State) (o : Output) : (s.answer o).rnd = s.rnd := rfl
@[simp] theorem State.answer_pending (s : State) (o : Output) : (s.answer o).pending = s.pending := rfl
@[simp] theorem State.answer_draws (s : State) (o : Output) : (s.answer o).draws = s.draws := rfl
@[simp] theorem State.answer_sounds (s : State) (o : Output) : (s.answer o).sounds = s.sounds := rfl

@[simp] theorem State.afterTicks_v (s : State) (n : Nat) : (s.afterTicks n).v = s.v := rfl
@[simp] theorem State.afterTicks_i (s : State) (n : Nat) : (s.afterTicks n).i = s.i := rfl
@[simp] theorem State.afterTicks_pc (s : State) (n : Nat) : (s.afterTicks n).pc = s.pc := rfl
@[simp] theorem State.afterTicks_stack (s : State) (n : Nat) : (s.afterTicks n).stack = s.stack := rfl
@[simp] theorem State.afterTicks_sp (s : State) (n : Nat) : (s.afterTicks n).sp = s.sp := rfl
@[simp] theorem State.afterTicks_fb (s : State) (n : Nat) : (s.afterTicks n).fb = s.fb := rfl
@[simp] theorem State.afterTicks_mem (s : State) (n : Nat) : (s.afterTicks n).mem = s.mem := rfl
@[simp] theorem State.afterTicks_fault (s : State) (n : Nat) : (s.afterTicks n).fault = s.fault := rfl
@[simp] theorem State.afterTicks_key (s : State) (n : Nat) : (s.afterTicks n).key = s.key := rfl
@[simp] theorem State.afterTicks_rnd (s : State) (n : Nat) : (s.afterTicks n).rnd = s.rnd := rfl
@[simp] theorem State.afterTicks_output (s : State) (n : Nat) : (s.afterTicks n).output = s.output := rfl
@[simp] theorem State.afterTicks_pending (s : State) (n : Nat) : (s.afterTicks n).pending = s.pending := rfl
@[simp] theorem State.afterTicks_draws (s : State) (n : Nat) : (s.afterTicks n).draws = s.draws := rfl

@[simp] theorem State.drawRows_i (s : State) (vx vy : Byte) (rows : List Byte) : (s.drawRows vx vy rows).i = s.i := rfl
@[simp] theorem State.drawRows_pc (s : State) (vx vy : Byte) (rows : List Byte) : (s.drawRows vx vy rows).pc = s.pc := rfl
@[simp] theorem State.drawRows_stack (s : State) (vx vy : Byte) (rows : List Byte) : (s.drawRows vx vy rows).stack = s.stack := rfl
@[simp] theorem State.drawRows_sp (s : State) (vx vy : Byte) (rows : List Byte) : (s.drawRows vx vy rows).sp = s.sp := rfl
@[simp] theorem State.drawRows_dt (s : State) (vx vy : Byte) (rows : List Byte) : (s.drawRows vx vy rows).dt = s.dt := rfl
@[simp] theorem State.drawRows_st (s : State) (vx vy : Byte) (rows : List Byte) : (s.drawRows vx vy rows).st = s.st := rfl
@[simp] theorem State.drawRows_mem (s : State) (vx vy : Byte) (rows : List Byte) : (s.drawRows vx vy rows).mem = s.mem := rfl
@[simp] theorem State.drawRows_fault (s : State) (vx vy : Byte) (rows : List Byte) : (s.drawRows vx vy rows).fault = s.fault := rfl
@[simp] theorem State.drawRows_key (s : State) (vx vy : Byte) (rows : List Byte) : (s.drawRows vx vy rows).key = s.key := rfl
@[simp] theorem State.drawRows_rnd (s : State) (vx vy : Byte) (rows : List Byte) : (s.drawRows vx vy rows).rnd = s.rnd := rfl
@[simp] theorem State.drawRows_output (s : State) (vx vy : Byte) (rows : List Byte) : (s.drawRows vx vy rows).output = s.output := rfl
@[simp] theorem State.drawRows_pending (s : State) (vx vy : Byte) (rows : List Byte) : (s.drawRows vx vy rows).pending = s.pending := rfl
@[simp] theorem State.drawRows_draws (s : State) (vx vy : Byte) (rows : List Byte) : (s.drawRows vx vy rows).draws = s.draws := rfl
@[simp] theorem State.drawRows_sounds (s : State) (vx vy : Byte) (rows : List Byte) : (s.drawRows vx vy rows).sounds = s.sounds := rfl

/-! ## Fields an update sets -/

@[simp] theorem State.advance_pc (s : State) : s.advance.pc = s.pc + 2 := rfl
@[simp] theorem State.skipIf_pc (s : State) (c : Bool) : (s.skipIf c).pc = s.pc + if c then 4 else 2 := rfl
@[simp] theorem State.answer_output (s : State) (o : Output) : (s.answer o).output = o := rfl
@[simp] theorem State.afterTicks_dt (s : State) (n : Nat) : (s.afterTicks n).dt = countDown n s.dt := rfl
@[simp] theorem State.afterTicks_st (s : State) (n : Nat) : (s.afterTicks n).st = countDown n s.st := rfl
@[simp] theorem State.afterTicks_sounds (s : State) (n : Nat) :
    (s.afterTicks n).sounds = s.sounds ++ tickAnswers n s.st := rfl
@[simp] theorem State.drawRows_fb (s : State) (vx vy : Byte) (rows : List Byte) :
    (s.drawRows vx vy rows).fb = (s.fb.draw false (spritePlaces vx vy 0 rows)).1 := rfl

/-! ## The state a Reset leaves -/

@[simp] theorem State.reload_v (s : State) (font : Vector Byte 80) (fill : Byte) (image : List Byte) :
    (s.reload font fill image).v = State.reset.v := rfl
@[simp] theorem State.reload_i (s : State) (font : Vector Byte 80) (fill : Byte) (image : List Byte) :
    (s.reload font fill image).i = State.reset.i := rfl
@[simp] theorem State.reload_pc (s : State) (font : Vector Byte 80) (fill : Byte) (image : List Byte) :
    (s.reload font fill image).pc = State.reset.pc := rfl
@[simp] theorem State.reload_stack (s : State) (font : Vector Byte 80) (fill : Byte) (image : List Byte) :
    (s.reload font fill image).stack = State.reset.stack := rfl
@[simp] theorem State.reload_sp (s : State) (font : Vector Byte 80) (fill : Byte) (image : List Byte) :
    (s.reload font fill image).sp = State.reset.sp := rfl
@[simp] theorem State.reload_dt (s : State) (font : Vector Byte 80) (fill : Byte) (image : List Byte) :
    (s.reload font fill image).dt = State.reset.dt := rfl
@[simp] theorem State.reload_st (s : State) (font : Vector Byte 80) (fill : Byte) (image : List Byte) :
    (s.reload font fill image).st = State.reset.st := rfl
@[simp] theorem State.reload_fb (s : State) (font : Vector Byte 80) (fill : Byte) (image : List Byte) :
    (s.reload font fill image).fb = State.reset.fb := rfl
@[simp] theorem State.reload_mem (s : State) (font : Vector Byte 80) (fill : Byte) (image : List Byte) :
    (s.reload font fill image).mem = Memory.ofFn (resetByte font fill image) := by
  simp only [State.reload]
@[simp] theorem State.reload_fault (s : State) (font : Vector Byte 80) (fill : Byte) (image : List Byte) :
    (s.reload font fill image).fault = State.reset.fault := rfl
@[simp] theorem State.reload_key (s : State) (font : Vector Byte 80) (fill : Byte) (image : List Byte) :
    (s.reload font fill image).key = s.key := rfl
@[simp] theorem State.reload_rnd (s : State) (font : Vector Byte 80) (fill : Byte) (image : List Byte) :
    (s.reload font fill image).rnd = s.rnd := rfl
@[simp] theorem State.reload_output (s : State) (font : Vector Byte 80) (fill : Byte) (image : List Byte) :
    (s.reload font fill image).output = State.reset.output := rfl
@[simp] theorem State.reload_pending (s : State) (font : Vector Byte 80) (fill : Byte) (image : List Byte) :
    (s.reload font fill image).pending = s.pending := rfl
@[simp] theorem State.reload_draws (s : State) (font : Vector Byte 80) (fill : Byte) (image : List Byte) :
    (s.reload font fill image).draws = s.draws := rfl
@[simp] theorem State.reload_sounds (s : State) (font : Vector Byte 80) (fill : Byte) (image : List Byte) :
    (s.reload font fill image).sounds = s.sounds := rfl

/-! ## General registers -/

/-- The read of a register depends on the register file alone. -/
theorem State.reg_congr {s t : State} (h : s.v = t.v) (r : Nibble) : s.reg r = t.reg r := by
  simp only [State.reg, h]

/-- A read after a write: the byte written at the register written, the old byte elsewhere. -/
@[simp] theorem State.setReg_reg (s : State) (x : Nibble) (b : Byte) (r : Nibble) :
    (s.setReg x b).reg r = if r = x then b else s.reg r := by
  simp only [State.reg, State.setReg, Vector.getElem_set]
  by_cases h : r = x
  · simp [h]
  · have : x.toNat ≠ r.toNat := fun e => h (BitVec.eq_of_toNat_eq e.symm)
    simp [h, this]

/-- The flag is the last write: VF holds it even where VF is the destination. -/
@[simp] theorem State.setRegFlag_reg (s : State) (x : Nibble) (b f : Byte) (r : Nibble) :
    (s.setRegFlag x b f).reg r = if r = vf then f else if r = x then b else s.reg r := by
  simp [State.setRegFlag]

@[simp] theorem State.advance_reg (s : State) (r : Nibble) : s.advance.reg r = s.reg r := rfl
@[simp] theorem State.skipIf_reg (s : State) (c : Bool) (r : Nibble) : (s.skipIf c).reg r = s.reg r := rfl
@[simp] theorem State.answer_reg (s : State) (o : Output) (r : Nibble) : (s.answer o).reg r = s.reg r := rfl
@[simp] theorem State.afterTicks_reg (s : State) (n : Nat) (r : Nibble) : (s.afterTicks n).reg r = s.reg r := rfl

/-- A draw writes VF and no other register. -/
@[simp] theorem State.drawRows_reg (s : State) (vx vy : Byte) (rows : List Byte) (r : Nibble) :
    (s.drawRows vx vy rows).reg r =
      if r = vf then collisionFlag (s.fb.draw false (spritePlaces vx vy 0 rows)).2 else s.reg r := by
  simp only [State.drawRows, State.setReg_reg]; rfl

/-! ## A run of registers -/

/-- Writing a run of registers changes the register file alone. -/
theorem State.setRegs_eq (bs : List Byte) :
    ∀ (s : State) (k : Nat), s.setRegs k bs = { s with v := (s.setRegs k bs).v } := by
  induction bs with
  | nil => intro s k; rfl
  | cons b bs ih =>
    intro s k
    simp only [State.setRegs]
    rw [ih]; rfl

/-- A read after writing a run of registers from `V[k]` on: the run's own byte inside it, the old byte outside. -/
theorem State.setRegs_reg (bs : List Byte) :
    ∀ (s : State) (k : Nat) (r : Nibble), k + bs.length ≤ 16 →
      (s.setRegs k bs).reg r =
        if k ≤ r.toNat ∧ r.toNat < k + bs.length then bs.getD (r.toNat - k) 0 else s.reg r := by
  induction bs with
  | nil => intro s k r _; simp only [State.setRegs, List.length_nil]; rw [if_neg (by omega)]
  | cons b bs ih =>
    intro s k r hk
    simp only [List.length_cons] at hk ⊢
    simp only [State.setRegs]
    rw [ih _ _ _ (by omega), State.setReg_reg]
    have hx : r = BitVec.ofNat 4 k ↔ r.toNat = k := by
      rw [← BitVec.toNat_inj, BitVec.toNat_ofNat]; omega
    by_cases h1 : r.toNat = k
    · rw [if_neg (by omega), if_pos (hx.2 h1), if_pos (by omega)]; simp [h1]
    · rw [if_neg (fun h => h1 (hx.1 h))]
      by_cases h2 : k + 1 ≤ r.toNat ∧ r.toNat < k + 1 + bs.length
      · rw [if_pos h2, if_pos (by omega)]
        obtain ⟨j, hj⟩ : ∃ j, r.toNat - k = j + 1 := ⟨r.toNat - k - 1, by omega⟩
        have : r.toNat - (k + 1) = j := by omega
        simp [hj, this]
      · rw [if_neg h2, if_neg (by omega)]

/-! ## Timers -/

/-- A timer counts down by the number of ticks and stops at 0. -/
theorem countDown_toNat (n : Nat) (t : Byte) : (countDown n t).toNat = t.toNat - n := by
  unfold countDown
  have := t.isLt
  split
  · next h => subst h; simp
  · rw [BitVec.toNat_ofNat, Nat.mod_eq_of_lt (by omega)]

/-- Ticks add up. -/
theorem countDown_countDown (m n : Nat) (t : Byte) : countDown m (countDown n t) = countDown (n + m) t := by
  apply BitVec.eq_of_toNat_eq
  simp only [countDown_toNat]; omega

theorem countDown_zero (t : Byte) : countDown 0 t = t := BitVec.eq_of_toNat_eq (by simp [countDown_toNat])

@[simp] theorem tickAnswers_length (n : Nat) (t : Byte) : (tickAnswers n t).length = n := by simp [tickAnswers]

/-- One tick answers whether the sound timer is above 0 (R183). -/
theorem tickAnswers_one (t : Byte) : tickAnswers 1 t = [decide (t.toNat > 0)] := rfl

/-- The answers of `m + n` ticks are those of `m` and then those of `n` from the timer as it is then. -/
theorem tickAnswers_add (m n : Nat) (t : Byte) :
    tickAnswers (m + n) t = tickAnswers m t ++ tickAnswers n (countDown m t) := by
  simp only [tickAnswers, List.range_add, List.map_append, List.map_map, countDown_toNat]
  congr 1
  refine List.map_congr_left fun k _ => ?_
  simp only [Function.comp_apply, decide_eq_decide]; omega

/-- Ticks follow each other: `m` of them and then `n` are `m + n`, answers included. -/
theorem State.afterTicks_afterTicks (s : State) (m n : Nat) : (s.afterTicks m).afterTicks n = s.afterTicks (m + n) := by
  simp only [State.afterTicks, countDown_countDown, tickAnswers_add, List.append_assoc]

theorem State.afterTicks_zero (s : State) : s.afterTicks 0 = s := by
  simp [State.afterTicks, countDown_zero, tickAnswers]

end Sys2Proof.Machine
end

