-- ==== Sys2Proof/Laws/Screen.lean ====
section
/-! SUPPORT. What the framebuffer operations do: a read after a flip and after the clear, what a draw of pairwise distinct
places does to every pixel and to the collision output, and that the places of one sprite are pairwise distinct (spec R154). -/

namespace Sys2Proof.Machine

open Sys2Proof

theorem Framebuffer.lit_clear (p : Place) : Framebuffer.clear.lit p = false := by
  simp [Framebuffer.lit, Framebuffer.clear]

/-- A flip changes its own pixel alone. -/
theorem Framebuffer.lit_flip (fb : Framebuffer) (p q : Place) :
    (fb.flip p).lit q = if q = p then !fb.lit p else fb.lit q := by
  obtain ⟨x, y⟩ := p
  obtain ⟨x', y'⟩ := q
  simp only [Framebuffer.lit, Framebuffer.flip, Fin.getElem_fin, Vector.getElem_set, Prod.mk.injEq]
  by_cases hx : x' = x
  · subst hx
    by_cases hy : y' = y
    · simp [hy]
    · have : (y : Nat) ≠ y' := fun e => hy (Fin.ext e.symm)
      simp [hy, this]
  · have : (x : Nat) ≠ x' := fun e => hx (Fin.ext e.symm)
    simp [hx, this]

/-- A draw over pairwise distinct places flips exactly those, and reports a collision exactly when one of them was lit. -/
theorem Framebuffer.draw_spec (ps : List Place) :
    ∀ (fb : Framebuffer) (hit : Bool), ps.Nodup →
      (∀ q, (fb.draw hit ps).1.lit q = if q ∈ ps then !fb.lit q else fb.lit q) ∧
      ((fb.draw hit ps).2 = true ↔ hit = true ∨ ∃ q ∈ ps, fb.lit q = true) := by
  induction ps with
  | nil => intro fb hit _; simp [Framebuffer.draw]
  | cons p ps ih =>
    intro fb hit hnd
    obtain ⟨hp, hnd⟩ := List.nodup_cons.1 hnd
    obtain ⟨h1, h2⟩ := ih (fb.flip p) (hit || fb.lit p) hnd
    simp only [Framebuffer.draw]
    refine ⟨fun q => ?_, ?_⟩
    · rw [h1, Framebuffer.lit_flip]
      by_cases hq : q = p
      · subst hq; simp [hp]
      · simp [hq]
    · rw [h2]
      have hl : (∃ q ∈ ps, (fb.flip p).lit q = true) ↔ ∃ q ∈ ps, fb.lit q = true := by
        refine exists_congr fun q => and_congr_right fun hq => ?_
        rw [Framebuffer.lit_flip, if_neg fun e : q = p => hp (e ▸ hq)]
      rw [hl]
      simp only [Bool.or_eq_true, List.mem_cons, exists_eq_or_imp, or_assoc]

/-! ## The places of a sprite -/

theorem mem_rowPlaces {vx vy b : Byte} {r : Nat} {p : Place} :
    p ∈ rowPlaces vx vy r b ↔ ∃ c < 8, b.getLsbD (7 - c) = true ∧ spritePlace vx vy r c = p := by
  simp [rowPlaces, spriteBit, and_assoc]

/-- A place belongs to a sprite exactly when a 1 bit of some row lands on it. -/
theorem mem_spritePlaces {vx vy : Byte} (bs : List Byte) {p : Place} :
    ∀ r₀, p ∈ spritePlaces vx vy r₀ bs ↔
      ∃ r < bs.length, ∃ c < 8, (bs.getD r 0).getLsbD (7 - c) = true ∧ spritePlace vx vy (r₀ + r) c = p := by
  induction bs with
  | nil => intro r₀; simp [spritePlaces]
  | cons b bs ih =>
    intro r₀
    simp only [spritePlaces, List.mem_append, mem_rowPlaces, ih, List.length_cons]
    constructor
    · rintro (⟨c, hc, hb, hp⟩ | ⟨r, hr, c, hc, hb, hp⟩)
      · exact ⟨0, by omega, c, hc, by simpa using hb, hp⟩
      · exact ⟨r + 1, by omega, c, hc, by simpa using hb, by rw [← hp]; congr 1; omega⟩
    · rintro ⟨r, hr, c, hc, hb, hp⟩
      rcases r with _ | r
      · exact .inl ⟨c, hc, by simpa using hb, hp⟩
      · exact .inr ⟨r, by omega, c, hc, by simpa using hb, by rw [← hp]; congr 1; omega⟩

/-- The columns of one row and the rows of one sprite land on different pixels (R154). -/
theorem spritePlace_injective {vx vy : Byte} {r c r' c' : Nat} (hc : c < 8) (hc' : c' < 8)
    (hr : r < r' + 32 ∧ r' < r + 32) (h : spritePlace vx vy r c = spritePlace vx vy r' c') : r = r' ∧ c = c' := by
  simp only [spritePlace, Prod.mk.injEq, Fin.mk.injEq] at h
  omega

theorem nodup_rowPlaces (vx vy : Byte) (r : Nat) (b : Byte) : (rowPlaces vx vy r b).Nodup := by
  refine List.Nodup.map_on (fun c hc d hd h => ?_) (List.Nodup.filter _ List.nodup_range)
  simp only [List.mem_filter, List.mem_range] at hc hd
  exact (spritePlace_injective hc.1 hd.1 (by omega) h).2

/-- The pixels of one draw are pairwise distinct (R154). -/
theorem nodup_spritePlaces (vx vy : Byte) (bs : List Byte) :
    ∀ r₀, bs.length ≤ 32 → (spritePlaces vx vy r₀ bs).Nodup := by
  induction bs with
  | nil => intro r₀ _; simp [spritePlaces]
  | cons b bs ih =>
    intro r₀ hl
    simp only [List.length_cons] at hl
    refine List.nodup_append.2 ⟨nodup_rowPlaces vx vy r₀ b, ih (r₀ + 1) (by omega), ?_⟩
    rintro p hp q hq rfl
    obtain ⟨c, hc, -, h1⟩ := mem_rowPlaces.1 hp
    obtain ⟨r, hr, d, hd, -, h2⟩ := (mem_spritePlaces bs (r₀ + 1)).1 hq
    have := (spritePlace_injective hc hd (by omega) (h1.trans h2.symm)).1
    omega

end Sys2Proof.Machine
end

