-- ==== Sys2Proof/Laws/Exec.lean ====
section
/-! SUPPORT. What the shared operations of the meanings and of the events can do, said once each: how a step completes or
faults, the call stack, and the next event. -/

namespace Sys2Proof.Machine

open Sys2Proof

/-! ## How a step ends -/

@[simp] theorem complete_eq (st : Status) (s : State) : complete st s = .next (s.answer (.status st)) := rfl

theorem raise_eq (f : Fault) (s : State) : raise f s = .next { s with fault := some f, output := .fault f } := rfl

/-- Everything `finish` can do: the operation's state with the status answered, or the fault taken from the step's state. -/
theorem finish_cases (st : Status) (s : State) (r : Except Fault State) :
    (∃ t, r = .ok t ∧ finish st s r = .next (t.answer (.status st))) ∨
    (∃ f, r = .error f ∧ finish st s r = .next { s with fault := some f, output := .fault f }) := by
  cases r with
  | ok t => exact .inl ⟨t, rfl, rfl⟩
  | error f => exact .inr ⟨f, rfl, rfl⟩

@[simp] theorem finish_ok (st : Status) (s t : State) : finish st s (.ok t) = .next (t.answer (.status st)) := rfl

@[simp] theorem finish_error (st : Status) (s : State) (f : Fault) :
    finish st s (.error f) = .next { s with fault := some f, output := .fault f } := rfl

/-- Every way a step of an instruction ends is a next state. -/
theorem finish_next (st : Status) (s : State) (r : Except Fault State) : ∃ t, finish st s r = .next t := by
  rcases finish_cases st s r with ⟨t, -, h⟩ | ⟨f, -, h⟩ <;> exact ⟨_, h⟩

@[simp] theorem map_ok {α β : Type} (f : α → β) (a : α) : (Except.ok a : Except Fault α).map f = .ok (f a) := rfl
@[simp] theorem map_error {α β : Type} (f : α → β) (e : Fault) : (Except.error e : Except Fault α).map f = .error e := rfl

/-! ## The call stack -/

/-- Everything a push can do (R30). -/
theorem push_cases (v : Word) (s : State) :
    (∃ h : s.sp.val < 16, push v s = .ok { s with
      stack := s.stack.set s.sp.val v h, sp := ⟨s.sp.val + 1, Nat.succ_lt_succ h⟩ }) ∨
    (s.sp.val = 16 ∧ push v s = .error .stackOverflow) := by
  unfold push
  split
  · next h => exact .inl ⟨h, rfl⟩
  · next h => exact .inr ⟨by have := s.sp.isLt; omega, rfl⟩

/-- Everything a pop can do (R31). -/
theorem pop_cases (s : State) :
    (∃ h : 0 < s.sp.val, pop s = .ok (s.stack[s.sp.val - 1], { s with sp := ⟨s.sp.val - 1, by omega⟩ })) ∨
    (s.sp.val = 0 ∧ pop s = .error .stackUnderflow) := by
  unfold pop
  split
  · next h => exact .inl ⟨h, rfl⟩
  · next h => exact .inr ⟨by omega, rfl⟩

/-! ## The fetch and the draw -/

/-- Everything a fetch can do (R56). -/
theorem Memory.fetch_cases (m : Memory) (a : Nat) :
    (a + 1 > 4095 ∧ m.fetch a = .error .addressOutOfRange) ∨
    (a + 1 ≤ 4095 ∧ m.fetch a = .ok (wordOfBytes (m.byteAt a) (m.byteAt (a + 1)))) := by
  unfold Memory.fetch
  by_cases h : a + 1 > 4095
  · exact .inl ⟨h, if_pos h⟩
  · exact .inr ⟨by omega, if_neg h⟩

/-- The pixels a draw of at most 32 rows leaves and its collision output, place by place (R151, R152, R154). -/
theorem Framebuffer.draw_sprite (fb : Framebuffer) (vx vy : Byte) (rows : List Byte) (h : rows.length ≤ 32) :
    (∀ q, (fb.draw false (spritePlaces vx vy 0 rows)).1.lit q =
      if q ∈ spritePlaces vx vy 0 rows then !fb.lit q else fb.lit q) ∧
    ((fb.draw false (spritePlaces vx vy 0 rows)).2 = true ↔ ∃ q ∈ spritePlaces vx vy 0 rows, fb.lit q = true) := by
  simpa using Framebuffer.draw_spec _ fb false (nodup_spritePlaces vx vy rows 0 h)

/-! ## Events -/

/-- Everything the driver's schedule can give: the event fixed first, or a Step after some ticks. -/
theorem nextEvent_cases (s : State) :
    (∃ e es, s.pending = e :: es ∧ nextEvent s = (e, { s with pending := es })) ∨
    (s.pending = [] ∧ ∃ key rnd n,
      nextEvent s = (.step key rnd, { s.afterTicks n with draws := s.draws + 1 })) := by
  unfold nextEvent
  split
  · next e es h => exact .inl ⟨e, es, h, rfl⟩
  · next h => exact .inr ⟨h, _, _, _, rfl⟩

/-- Everything a Step event can do (R72): take the latched fault again, take the fetch's fault, or run the instruction. -/
theorem stepEvent_cases (key : Option Nibble) (rnd : Byte) (s : State) :
    (∃ f, s.fault = some f ∧ stepEvent key rnd s = raise f { s with key := key, rnd := rnd }) ∨
    (s.fault = none ∧ s.pc.toNat + 1 > 4095 ∧
      stepEvent key rnd s = raise .addressOutOfRange { s with key := key, rnd := rnd }) ∨
    (s.fault = none ∧ s.pc.toNat + 1 ≤ 4095 ∧
      stepEvent key rnd s =
        exec (decodeWord (wordOfBytes (s.mem.byteAt s.pc.toNat) (s.mem.byteAt (s.pc.toNat + 1))))
          { s with key := key, rnd := rnd }) := by
  unfold stepEvent
  cases hf : s.fault with
  | some f => exact .inl ⟨f, rfl, by rfl⟩
  | none =>
    rcases s.mem.fetch_cases s.pc.toNat with ⟨h, e⟩ | ⟨h, e⟩
    · exact .inr (.inl ⟨rfl, h, by simp only [e]⟩)
    · exact .inr (.inr ⟨rfl, h, by simp only [e]⟩)

end Sys2Proof.Machine
end

