-- ==== Sys2Proof/Laws/Operands.lean ====
section
/-! SUPPORT. What the operand forms and the flags compute, in natural numbers (spec R80, R133, R141, R142, R143). -/

namespace Sys2Proof.Machine

open Sys2Proof

@[simp] theorem absolute_toNat (nnn : Addr) : (absolute nnn).toNat = nnn.toNat := by
  have := nnn.isLt
  rw [absolute, BitVec.toNat_setWidth, Nat.mod_eq_of_lt (by omega)]

/-- The target of Bnnn is the plain sum: it cannot leave 16 bits (R103). -/
@[simp] theorem State.offsetTarget_toNat (s : State) (nnn : Addr) :
    (s.offsetTarget nnn).toNat = nnn.toNat + (s.reg 0).toNat := by
  have := nnn.isLt
  have := (s.reg 0).isLt
  rw [State.offsetTarget, BitVec.toNat_add, absolute_toNat, BitVec.toNat_setWidth, Nat.mod_eq_of_lt (by omega : _ < 2 ^ 16),
    Nat.mod_eq_of_lt (by omega)]

@[simp] theorem keyByte_toNat (k : Nibble) : (keyByte k).toNat = k.toNat := by
  have := k.isLt
  rw [keyByte, BitVec.toNat_setWidth, Nat.mod_eq_of_lt (by omega)]

/-- The key test is true exactly when a key is supplied and its value is all of Vx (R166). -/
theorem State.keyMatches_iff (s : State) (x : Nibble) :
    s.keyMatches x = true ↔ ∃ k, s.key = some k ∧ k.toNat = (s.reg x).toNat := by
  unfold State.keyMatches
  cases s.key with
  | none => simp
  | some k =>
    rw [show (∃ k', some k = some k' ∧ k'.toNat = (s.reg x).toNat) ↔ k.toNat = (s.reg x).toNat by simp,
      ← keyByte_toNat k, BitVec.toNat_inj]
    exact beq_iff_eq

@[simp] theorem glyphAddr_toNat (b : Byte) : (glyphAddr b).toNat = b.toNat * 5 := by
  have := b.isLt
  rw [glyphAddr, BitVec.toNat_ofNat, Nat.mod_eq_of_lt (by omega)]

@[simp] theorem State.indexSum_toNat (s : State) (x : Nibble) :
    (s.indexSum x).toNat = (s.i.toNat + (s.reg x).toNat) % 65536 := BitVec.toNat_ofNat _ _

@[simp] theorem State.dataAddr_zero (s : State) : s.dataAddr 0 = s.i.toNat := rfl

@[simp] theorem decimalDigits_length (b : Byte) : (decimalDigits b).length = 3 := rfl

@[simp] theorem State.regsTo_length (s : State) (x : Nibble) : (s.regsTo x).length = x.toNat + 1 := by
  simp [State.regsTo]

/-- Byte `k` of what Fx55 stores is register `k` (R144). -/
theorem State.regsTo_getD (s : State) (x r : Nibble) (h : r.toNat ≤ x.toNat) : (s.regsTo x).getD r.toNat 0 = s.reg r := by
  have hr : r.toNat < x.toNat + 1 := by omega
  simp [State.regsTo, hr]

theorem flagByte_eq (b : Bool) : flagByte b = if b then 1 else 0 := rfl

/-- Writing a run of registers leaves every field but the register file. -/
theorem State.setRegs_fields (s : State) (k : Nat) (bs : List Byte) :
    (s.setRegs k bs).i = s.i ∧ (s.setRegs k bs).pc = s.pc ∧ (s.setRegs k bs).stack = s.stack ∧
    (s.setRegs k bs).sp = s.sp ∧ (s.setRegs k bs).dt = s.dt ∧ (s.setRegs k bs).st = s.st ∧ (s.setRegs k bs).fb = s.fb ∧
    (s.setRegs k bs).mem = s.mem ∧ (s.setRegs k bs).fault = s.fault ∧ (s.setRegs k bs).key = s.key ∧
    (s.setRegs k bs).rnd = s.rnd ∧ (s.setRegs k bs).output = s.output ∧ (s.setRegs k bs).pending = s.pending ∧
    (s.setRegs k bs).draws = s.draws ∧ (s.setRegs k bs).sounds = s.sounds := by
  rw [State.setRegs_eq]; simp

end Sys2Proof.Machine
end

