-- ==== Sys2Proof/Laws/PerInstr.lean ====
section
/-! SUPPORT. A statement about every instruction as syntax, one lemma per constructor: its encoding is the one the opcode
map's row of its pattern accepts (spec R76). -/

namespace Sys2Proof

/-- The pattern an instruction is written under in the opcode map; `none` for the unrecognized word (R76). -/
def patternOf : Instr → Option String
  | .cls => some "00E0"
  | .ret => some "00EE"
  | .jp _ => some "1nnn"
  | .call _ => some "2nnn"
  | .seImm _ _ => some "3xkk"
  | .sneImm _ _ => some "4xkk"
  | .seReg _ _ => some "5xy0"
  | .ldImm _ _ => some "6xkk"
  | .addImm _ _ => some "7xkk"
  | .ldReg _ _ => some "8xy0"
  | .orReg _ _ => some "8xy1"
  | .andReg _ _ => some "8xy2"
  | .xorReg _ _ => some "8xy3"
  | .addReg _ _ => some "8xy4"
  | .sub _ _ => some "8xy5"
  | .shr _ _ => some "8xy6"
  | .subn _ _ => some "8xy7"
  | .shl _ _ => some "8xyE"
  | .sneReg _ _ => some "9xy0"
  | .ldI _ => some "Annn"
  | .jpV0 _ => some "Bnnn"
  | .rnd _ _ => some "Cxkk"
  | .drw _ _ _ => some "Dxyn"
  | .skp _ => some "Ex9E"
  | .sknp _ => some "ExA1"
  | .ldVxDt _ => some "Fx07"
  | .ldVxK _ => some "Fx0A"
  | .ldDtVx _ => some "Fx15"
  | .ldStVx _ => some "Fx18"
  | .addI _ => some "Fx1E"
  | .ldF _ => some "Fx29"
  | .ldB _ => some "Fx33"
  | .ldMemVx _ => some "Fx55"
  | .ldVxMem _ => some "Fx65"
  | .unrecognized _ => none

/-- A row of the map accepts a word of its operation whatever the word's fields. -/
theorem accepts_op {name : String} {p w : Word} (h : formXyn (fieldOp w) 0x0 0x0 0x0 = p) :
    (⟨name, 0xF000, p⟩ : OpcodeRow).accepts w = true := by simp only [OpcodeRow.accepts, and_F000, h, beq_self_eq_true]

/-- A row that fixes the last digit accepts a word of its operation and digit. -/
theorem accepts_op_n {name : String} {p w : Word} (h : formXyn (fieldOp w) 0x0 0x0 (fieldN w) = p) :
    (⟨name, 0xF00F, p⟩ : OpcodeRow).accepts w = true := by simp only [OpcodeRow.accepts, and_F00F, h, beq_self_eq_true]

/-- A row that fixes the last two digits accepts a word of its operation and digits. -/
theorem accepts_op_kk {name : String} {p w : Word} (h : formXkk (fieldOp w) 0x0 (fieldKk w) = p) :
    (⟨name, 0xF0FF, p⟩ : OpcodeRow).accepts w = true := by simp only [OpcodeRow.accepts, and_F0FF, h, beq_self_eq_true]

/-- The encoding of a well-formed instruction is accepted by the row of its pattern; that of the unrecognized word by none. -/
def Laws.MatchesMap.Statement (i : Instr) : Prop :=
  i.wellFormed = true →
    match patternOf i with
    | some name => ∃ r ∈ opcodeMap, r.name = name ∧ r.accepts (encode i) = true
    | none => ∀ r ∈ opcodeMap, r.accepts (encode i) = false

theorem Laws.MatchesMap.cls : Laws.MatchesMap.Statement .cls := fun _ =>
  ⟨⟨"00E0", 0xFFFF, 0x00E0⟩, by decide, rfl, by decide⟩

theorem Laws.MatchesMap.ret : Laws.MatchesMap.Statement .ret := fun _ =>
  ⟨⟨"00EE", 0xFFFF, 0x00EE⟩, by decide, rfl, by decide⟩

theorem Laws.MatchesMap.jp (nnn : Addr) : Laws.MatchesMap.Statement (.jp nnn) := fun _ =>
  ⟨⟨"1nnn", 0xF000, 0x1000⟩, by decide, rfl, accepts_op (by simp only [encode, fieldOp_formNnn]; decide)⟩

theorem Laws.MatchesMap.call (nnn : Addr) : Laws.MatchesMap.Statement (.call nnn) := fun _ =>
  ⟨⟨"2nnn", 0xF000, 0x2000⟩, by decide, rfl, accepts_op (by simp only [encode, fieldOp_formNnn]; decide)⟩

theorem Laws.MatchesMap.seImm (x : Nibble) (kk : Byte) : Laws.MatchesMap.Statement (.seImm x kk) := fun _ =>
  ⟨⟨"3xkk", 0xF000, 0x3000⟩, by decide, rfl, accepts_op (by simp only [encode, fieldOp_formXkk]; decide)⟩

theorem Laws.MatchesMap.sneImm (x : Nibble) (kk : Byte) : Laws.MatchesMap.Statement (.sneImm x kk) := fun _ =>
  ⟨⟨"4xkk", 0xF000, 0x4000⟩, by decide, rfl, accepts_op (by simp only [encode, fieldOp_formXkk]; decide)⟩

theorem Laws.MatchesMap.seReg (x : Nibble) (y : Nibble) : Laws.MatchesMap.Statement (.seReg x y) := fun _ =>
  ⟨⟨"5xy0", 0xF00F, 0x5000⟩, by decide, rfl, accepts_op_n (by simp only [encode, fieldOp_formXyn, fieldN_formXyn]; decide)⟩

theorem Laws.MatchesMap.ldImm (x : Nibble) (kk : Byte) : Laws.MatchesMap.Statement (.ldImm x kk) := fun _ =>
  ⟨⟨"6xkk", 0xF000, 0x6000⟩, by decide, rfl, accepts_op (by simp only [encode, fieldOp_formXkk]; decide)⟩

theorem Laws.MatchesMap.addImm (x : Nibble) (kk : Byte) : Laws.MatchesMap.Statement (.addImm x kk) := fun _ =>
  ⟨⟨"7xkk", 0xF000, 0x7000⟩, by decide, rfl, accepts_op (by simp only [encode, fieldOp_formXkk]; decide)⟩

theorem Laws.MatchesMap.ldReg (x : Nibble) (y : Nibble) : Laws.MatchesMap.Statement (.ldReg x y) := fun _ =>
  ⟨⟨"8xy0", 0xF00F, 0x8000⟩, by decide, rfl, accepts_op_n (by simp only [encode, fieldOp_formXyn, fieldN_formXyn]; decide)⟩

theorem Laws.MatchesMap.orReg (x : Nibble) (y : Nibble) : Laws.MatchesMap.Statement (.orReg x y) := fun _ =>
  ⟨⟨"8xy1", 0xF00F, 0x8001⟩, by decide, rfl, accepts_op_n (by simp only [encode, fieldOp_formXyn, fieldN_formXyn]; decide)⟩

theorem Laws.MatchesMap.andReg (x : Nibble) (y : Nibble) : Laws.MatchesMap.Statement (.andReg x y) := fun _ =>
  ⟨⟨"8xy2", 0xF00F, 0x8002⟩, by decide, rfl, accepts_op_n (by simp only [encode, fieldOp_formXyn, fieldN_formXyn]; decide)⟩

theorem Laws.MatchesMap.xorReg (x : Nibble) (y : Nibble) : Laws.MatchesMap.Statement (.xorReg x y) := fun _ =>
  ⟨⟨"8xy3", 0xF00F, 0x8003⟩, by decide, rfl, accepts_op_n (by simp only [encode, fieldOp_formXyn, fieldN_formXyn]; decide)⟩

theorem Laws.MatchesMap.addReg (x : Nibble) (y : Nibble) : Laws.MatchesMap.Statement (.addReg x y) := fun _ =>
  ⟨⟨"8xy4", 0xF00F, 0x8004⟩, by decide, rfl, accepts_op_n (by simp only [encode, fieldOp_formXyn, fieldN_formXyn]; decide)⟩

theorem Laws.MatchesMap.sub (x : Nibble) (y : Nibble) : Laws.MatchesMap.Statement (.sub x y) := fun _ =>
  ⟨⟨"8xy5", 0xF00F, 0x8005⟩, by decide, rfl, accepts_op_n (by simp only [encode, fieldOp_formXyn, fieldN_formXyn]; decide)⟩

theorem Laws.MatchesMap.shr (x : Nibble) (y : Nibble) : Laws.MatchesMap.Statement (.shr x y) := fun _ =>
  ⟨⟨"8xy6", 0xF00F, 0x8006⟩, by decide, rfl, accepts_op_n (by simp only [encode, fieldOp_formXyn, fieldN_formXyn]; decide)⟩

theorem Laws.MatchesMap.subn (x : Nibble) (y : Nibble) : Laws.MatchesMap.Statement (.subn x y) := fun _ =>
  ⟨⟨"8xy7", 0xF00F, 0x8007⟩, by decide, rfl, accepts_op_n (by simp only [encode, fieldOp_formXyn, fieldN_formXyn]; decide)⟩

theorem Laws.MatchesMap.shl (x : Nibble) (y : Nibble) : Laws.MatchesMap.Statement (.shl x y) := fun _ =>
  ⟨⟨"8xyE", 0xF00F, 0x800E⟩, by decide, rfl, accepts_op_n (by simp only [encode, fieldOp_formXyn, fieldN_formXyn]; decide)⟩

theorem Laws.MatchesMap.sneReg (x : Nibble) (y : Nibble) : Laws.MatchesMap.Statement (.sneReg x y) := fun _ =>
  ⟨⟨"9xy0", 0xF00F, 0x9000⟩, by decide, rfl, accepts_op_n (by simp only [encode, fieldOp_formXyn, fieldN_formXyn]; decide)⟩

theorem Laws.MatchesMap.ldI (nnn : Addr) : Laws.MatchesMap.Statement (.ldI nnn) := fun _ =>
  ⟨⟨"Annn", 0xF000, 0xA000⟩, by decide, rfl, accepts_op (by simp only [encode, fieldOp_formNnn]; decide)⟩

theorem Laws.MatchesMap.jpV0 (nnn : Addr) : Laws.MatchesMap.Statement (.jpV0 nnn) := fun _ =>
  ⟨⟨"Bnnn", 0xF000, 0xB000⟩, by decide, rfl, accepts_op (by simp only [encode, fieldOp_formNnn]; decide)⟩

theorem Laws.MatchesMap.rnd (x : Nibble) (kk : Byte) : Laws.MatchesMap.Statement (.rnd x kk) := fun _ =>
  ⟨⟨"Cxkk", 0xF000, 0xC000⟩, by decide, rfl, accepts_op (by simp only [encode, fieldOp_formXkk]; decide)⟩

theorem Laws.MatchesMap.drw (x : Nibble) (y : Nibble) (n : Nibble) : Laws.MatchesMap.Statement (.drw x y n) := fun _ =>
  ⟨⟨"Dxyn", 0xF000, 0xD000⟩, by decide, rfl, accepts_op (by simp only [encode, fieldOp_formXyn]; decide)⟩

theorem Laws.MatchesMap.skp (x : Nibble) : Laws.MatchesMap.Statement (.skp x) := fun _ =>
  ⟨⟨"Ex9E", 0xF0FF, 0xE09E⟩, by decide, rfl, accepts_op_kk (by simp only [encode, fieldOp_formXkk, fieldKk_formXkk]; decide)⟩

theorem Laws.MatchesMap.sknp (x : Nibble) : Laws.MatchesMap.Statement (.sknp x) := fun _ =>
  ⟨⟨"ExA1", 0xF0FF, 0xE0A1⟩, by decide, rfl, accepts_op_kk (by simp only [encode, fieldOp_formXkk, fieldKk_formXkk]; decide)⟩

theorem Laws.MatchesMap.ldVxDt (x : Nibble) : Laws.MatchesMap.Statement (.ldVxDt x) := fun _ =>
  ⟨⟨"Fx07", 0xF0FF, 0xF007⟩, by decide, rfl, accepts_op_kk (by simp only [encode, fieldOp_formXkk, fieldKk_formXkk]; decide)⟩

theorem Laws.MatchesMap.ldVxK (x : Nibble) : Laws.MatchesMap.Statement (.ldVxK x) := fun _ =>
  ⟨⟨"Fx0A", 0xF0FF, 0xF00A⟩, by decide, rfl, accepts_op_kk (by simp only [encode, fieldOp_formXkk, fieldKk_formXkk]; decide)⟩

theorem Laws.MatchesMap.ldDtVx (x : Nibble) : Laws.MatchesMap.Statement (.ldDtVx x) := fun _ =>
  ⟨⟨"Fx15", 0xF0FF, 0xF015⟩, by decide, rfl, accepts_op_kk (by simp only [encode, fieldOp_formXkk, fieldKk_formXkk]; decide)⟩

theorem Laws.MatchesMap.ldStVx (x : Nibble) : Laws.MatchesMap.Statement (.ldStVx x) := fun _ =>
  ⟨⟨"Fx18", 0xF0FF, 0xF018⟩, by decide, rfl, accepts_op_kk (by simp only [encode, fieldOp_formXkk, fieldKk_formXkk]; decide)⟩

theorem Laws.MatchesMap.addI (x : Nibble) : Laws.MatchesMap.Statement (.addI x) := fun _ =>
  ⟨⟨"Fx1E", 0xF0FF, 0xF01E⟩, by decide, rfl, accepts_op_kk (by simp only [encode, fieldOp_formXkk, fieldKk_formXkk]; decide)⟩

theorem Laws.MatchesMap.ldF (x : Nibble) : Laws.MatchesMap.Statement (.ldF x) := fun _ =>
  ⟨⟨"Fx29", 0xF0FF, 0xF029⟩, by decide, rfl, accepts_op_kk (by simp only [encode, fieldOp_formXkk, fieldKk_formXkk]; decide)⟩

theorem Laws.MatchesMap.ldB (x : Nibble) : Laws.MatchesMap.Statement (.ldB x) := fun _ =>
  ⟨⟨"Fx33", 0xF0FF, 0xF033⟩, by decide, rfl, accepts_op_kk (by simp only [encode, fieldOp_formXkk, fieldKk_formXkk]; decide)⟩

theorem Laws.MatchesMap.ldMemVx (x : Nibble) : Laws.MatchesMap.Statement (.ldMemVx x) := fun _ =>
  ⟨⟨"Fx55", 0xF0FF, 0xF055⟩, by decide, rfl, accepts_op_kk (by simp only [encode, fieldOp_formXkk, fieldKk_formXkk]; decide)⟩

theorem Laws.MatchesMap.ldVxMem (x : Nibble) : Laws.MatchesMap.Statement (.ldVxMem x) := fun _ =>
  ⟨⟨"Fx65", 0xF0FF, 0xF065⟩, by decide, rfl, accepts_op_kk (by simp only [encode, fieldOp_formXkk, fieldKk_formXkk]; decide)⟩

theorem Laws.MatchesMap.unrecognized (w : Word) : Laws.MatchesMap.Statement (.unrecognized w) := by
  intro h r hr
  simpa [encode] using List.all_eq_true.1 h r hr

end Sys2Proof
end

