-- ==== Sys2Proof/Tests/Slice0.lean ====
section
/-! SUPPORT. The model's own tests. Every expected value is the spec's: a row of 95_test_vectors.md, named in the comment
above its group, or a word written out from the encodings of R71 and R76. After them come the witnesses: for each statement
with hypotheses, concrete values that meet them together, clause by clause. -/

namespace Sys2Proof.Tests

open Sys2Proof Sys2Proof.Machine

/-! ## Helpers -/

/-- The reset state with some registers set. -/
def withRegs (l : List (Nibble × Byte)) : State := l.foldl (fun s p => s.setReg p.1 p.2) State.reset

/-- The state with bytes placed in memory from an address on. -/
def poke (a : Nat) (bs : List Byte) (s : State) : State := { s with mem := s.mem.setBytes a bs }

/-- The state with some pixels lit. -/
def light (l : List Place) (s : State) : State := { s with fb := l.foldl Framebuffer.flip s.fb }

/-- The state whose next event is a Step with its own inputs. -/
def stepping (s : State) : State := { s with pending := [.step s.key s.rnd] }

/-- One Step of the word placed at the program counter; the state itself where the step gives no next state. -/
def run (w : Nat) (s : State) : State :=
  match step ((stepping s).withFetchWord 16 w) with
  | .next t => t
  | .fault _ | .refused _ => s

/-- One event; the state itself where the event gives no next state. -/
def event (e : Event) (s : State) : State :=
  match step { s with pending := [e] } with
  | .next t => t
  | .fault _ | .refused _ => s

/-! ## Well-formedness: the one check, on words that match a row and on words that match none (R76, R78) -/

theorem test_wellFormed_refuses_cls_word : (Instr.unrecognized 0x00E0).wellFormed = false := by decide
theorem test_wellFormed_refuses_form_xyn : (Instr.unrecognized 0x8AB4).wellFormed = false := by decide
theorem test_wellFormed_refuses_form_x : (Instr.unrecognized 0xF965).wellFormed = false := by decide
theorem test_wellFormed_refuses_form_nnn : (Instr.unrecognized 0x1ABC).wellFormed = false := by decide
theorem test_wellFormed_accepts_no_op : (Instr.unrecognized 0x8ABF).wellFormed = true := by decide
theorem test_wellFormed_accepts_drw : (Instr.drw 1 2 0).wellFormed = true := by decide

/-! ## Decoding: a word for every constructor, from R76's patterns and L2-a -/

theorem test_decode_cls : decodeWord 0b0000_0000_1110_0000 = .cls := by decide
theorem test_decode_ret : decodeWord 0b0000_0000_1110_1110 = .ret := by decide
theorem test_decode_jp : decodeWord 0b0001_1010_1011_1100 = .jp 0xABC := by decide
theorem test_decode_call : decodeWord 0b0010_1111_1111_1111 = .call 0xFFF := by decide
theorem test_decode_seImm : decodeWord 0b0011_1010_0111_1111 = .seImm 0xA 0x7F := by decide
theorem test_decode_sneImm : decodeWord 0b0100_1010_0000_0001 = .sneImm 0xA 0x01 := by decide
theorem test_decode_seReg : decodeWord 0b0101_1010_1011_0000 = .seReg 0xA 0xB := by decide
theorem test_decode_ldImm : decodeWord 0b0110_1010_0010_1111 = .ldImm 0xA 0x2F := by decide
theorem test_decode_addImm : decodeWord 0b0111_1010_1111_1111 = .addImm 0xA 0xFF := by decide
theorem test_decode_ldReg : decodeWord 0b1000_0001_0010_0000 = .ldReg 1 2 := by decide
theorem test_decode_orReg : decodeWord 0b1000_0001_0010_0001 = .orReg 1 2 := by decide
theorem test_decode_andReg : decodeWord 0b1000_0001_0010_0010 = .andReg 1 2 := by decide
theorem test_decode_xorReg : decodeWord 0b1000_0001_0010_0011 = .xorReg 1 2 := by decide
theorem test_decode_addReg : decodeWord 0b1000_1010_1011_0100 = .addReg 0xA 0xB := by decide
theorem test_decode_sub : decodeWord 0b1000_0001_0010_0101 = .sub 1 2 := by decide
theorem test_decode_shr : decodeWord 0b1000_0001_0010_0110 = .shr 1 2 := by decide
theorem test_decode_subn : decodeWord 0b1000_0001_0010_0111 = .subn 1 2 := by decide
theorem test_decode_shl : decodeWord 0b1000_1010_1011_1110 = .shl 0xA 0xB := by decide
theorem test_decode_sneReg : decodeWord 0b1001_1010_1011_0000 = .sneReg 0xA 0xB := by decide
theorem test_decode_ldI : decodeWord 0b1010_0010_1111_0000 = .ldI 0x2F0 := by decide
theorem test_decode_jpV0 : decodeWord 0b1011_0001_0010_0011 = .jpV0 0x123 := by decide
theorem test_decode_rnd : decodeWord 0b1100_0001_0000_1111 = .rnd 1 0x0F := by decide
theorem test_decode_drw : decodeWord 0b1101_0001_0010_0101 = .drw 1 2 5 := by decide
theorem test_decode_skp : decodeWord 0b1110_0001_1001_1110 = .skp 1 := by decide
theorem test_decode_sknp : decodeWord 0b1110_0001_1010_0001 = .sknp 1 := by decide
theorem test_decode_ldVxDt : decodeWord 0b1111_0010_0000_0111 = .ldVxDt 2 := by decide
theorem test_decode_ldVxK : decodeWord 0b1111_0011_0000_1010 = .ldVxK 3 := by decide
theorem test_decode_ldDtVx : decodeWord 0b1111_0010_0001_0101 = .ldDtVx 2 := by decide
theorem test_decode_ldStVx : decodeWord 0b1111_0010_0001_1000 = .ldStVx 2 := by decide
theorem test_decode_addI : decodeWord 0b1111_0001_0001_1110 = .addI 1 := by decide
theorem test_decode_ldF : decodeWord 0b1111_0011_0010_1001 = .ldF 3 := by decide
theorem test_decode_ldB : decodeWord 0b1111_0000_0011_0011 = .ldB 0 := by decide
theorem test_decode_ldMemVx : decodeWord 0b1111_0011_0101_0101 = .ldMemVx 3 := by decide
theorem test_decode_ldVxMem : decodeWord 0b1111_1001_0110_0101 = .ldVxMem 9 := by decide

/-- Unrecognized words of L2-a. -/
theorem test_decode_unrecognized_op0 :
    decodeWord 0x0000 = .unrecognized 0x0000 ∧ decodeWord 0x00E1 = .unrecognized 0x00E1 ∧
    decodeWord 0x0123 = .unrecognized 0x0123 := by decide
theorem test_decode_unrecognized_minor :
    decodeWord 0x5AB1 = .unrecognized 0x5AB1 ∧ decodeWord 0x8AB8 = .unrecognized 0x8AB8 ∧
    decodeWord 0x8ABF = .unrecognized 0x8ABF ∧ decodeWord 0x9ABF = .unrecognized 0x9ABF := by decide
theorem test_decode_unrecognized_low_byte :
    decodeWord 0xE19F = .unrecognized 0xE19F ∧ decodeWord 0xF075 = .unrecognized 0xF075 ∧
    decodeWord 0xFFFF = .unrecognized 0xFFFF := by decide

/-- The table's bit numbering is that of the word: bit 15 is the word's highest (R70). -/
theorem test_decodeTableWord : decodeTableWord 16 0x8AB4 = some (.addReg 0xA 0xB) := by decide

/-- The high byte lies at the lower address (L2-g, "executes 0xA2F0, not 0xF0A2"). -/
theorem test_decode_bytes : decode [0xA2, 0xF0, 0x11] = .ok (.ldI 0x2F0, [0x11]) := by decide

/-- One byte is no instruction. -/
theorem test_decode_truncated : decode [0xA2] = .error .truncated := by decide

/-- The encoder against the same words of L2-a. -/
theorem test_encode_words :
    encode (.call 0xFFF) = 0x2FFF ∧ encode (.seImm 0xA 0x7F) = 0x3A7F ∧ encode (.shl 0xA 0xB) = 0x8ABE ∧
    encode (.drw 1 2 5) = 0xD125 ∧ encode (.ldVxMem 9) = 0xF965 ∧ encodeBytes (.ldI 0x2F0) = [0xA2, 0xF0] := by decide

/-! ## Control transfer and skips (L2-b) -/

theorem test_jp_odd_target : (run 0x1203 State.reset).pc = 0x203 := by decide

theorem test_call_at_last_word :
    (run 0x2300 { State.reset with pc := 0xFFE, sp := 3 }).stack[3] = 0x1000 ∧
    (run 0x2300 { State.reset with pc := 0xFFE, sp := 3 }).sp = 4 ∧
    (run 0x2300 { State.reset with pc := 0xFFE, sp := 3 }).pc = 0x300 := by decide

theorem test_call_overflow :
    (run 0x2300 { State.reset with pc := 0x202, sp := 16 }).fault = some .stackOverflow ∧
    (run 0x2300 { State.reset with pc := 0x202, sp := 16 }).sp = 16 ∧
    (run 0x2300 { State.reset with pc := 0x202, sp := 16 }).pc = 0x202 := by decide

theorem test_ret_pops :
    (run 0x00EE { State.reset with pc := 0x300, sp := 1, stack := State.reset.stack.set 0 0x204 }).pc = 0x204 ∧
    (run 0x00EE { State.reset with pc := 0x300, sp := 1, stack := State.reset.stack.set 0 0x204 }).sp = 0 := by decide

theorem test_ret_underflow :
    (run 0x00EE { State.reset with pc := 0x300 }).output = .fault .stackUnderflow ∧
    (run 0x00EE { State.reset with pc := 0x300 }).pc = 0x300 := by decide

theorem test_jpV0_no_wrap : (run 0xBFFF (withRegs [(0, 0xFF)])).pc = 0x10FE := by decide
theorem test_jpV0_uses_v0 : (run 0xB1FE (withRegs [(0, 0x02), (1, 0x77)])).pc = 0x200 := by decide

theorem test_seImm_taken : (run 0x3A00 { State.reset with pc := 0xFFC }).pc = 0x1000 := by decide
theorem test_seImm_not_taken : (run 0x3A00 { withRegs [(0xA, 1)] with pc := 0x206 }).pc = 0x208 := by decide
theorem test_sneImm_taken : (run 0x4A00 { withRegs [(0xA, 1)] with pc := 0x206 }).pc = 0x20A := by decide
theorem test_sneImm_not_taken : (run 0x4A00 { State.reset with pc := 0x206 }).pc = 0x208 := by decide
theorem test_seReg_taken : (run 0x5120 (withRegs [(1, 7), (2, 7)])).pc = 0x204 := by decide
theorem test_seReg_not_taken : (run 0x5120 (withRegs [(1, 7), (2, 8)])).pc = 0x202 := by decide
theorem test_sneReg_taken : (run 0x9120 (withRegs [(1, 7), (2, 8)])).pc = 0x204 := by decide
theorem test_sneReg_same_register : (run 0x9110 (withRegs [(1, 7)])).pc = 0x202 := by decide

theorem test_unrecognized_is_no_op :
    (run 0x8008 State.reset).pc = 0x202 ∧ (run 0x8008 State.reset).v = State.reset.v ∧
    (run 0x8008 State.reset).output = .status .continue := by decide

/-! ## Registers and arithmetic (L1, L2-c) -/

theorem test_ldImm_vf : (run 0x6F07 State.reset).reg 0xF = 0x07 := by decide
theorem test_addImm_wraps_no_flag :
    (run 0x7105 (withRegs [(1, 0xFE), (0xF, 0xAA)])).reg 1 = 0x03 ∧
    (run 0x7105 (withRegs [(1, 0xFE), (0xF, 0xAA)])).reg 0xF = 0xAA := by decide
theorem test_ldReg : (run 0x8120 (withRegs [(2, 0x55)])).reg 1 = 0x55 := by decide
theorem test_orReg_keeps_vf :
    (run 0x8121 (withRegs [(1, 0xF0), (2, 0x0F), (0xF, 0x5A)])).reg 1 = 0xFF ∧
    (run 0x8121 (withRegs [(1, 0xF0), (2, 0x0F), (0xF, 0x5A)])).reg 0xF = 0x5A := by decide
theorem test_andReg : (run 0x8122 (withRegs [(1, 0xF3), (2, 0x3F)])).reg 1 = 0x33 := by decide
theorem test_xorReg : (run 0x8123 (withRegs [(1, 0xFF), (2, 0x0F)])).reg 1 = 0xF0 := by decide
theorem test_addReg_carry :
    (run 0x8124 (withRegs [(1, 0xFF), (2, 0x01)])).reg 1 = 0x00 ∧
    (run 0x8124 (withRegs [(1, 0xFF), (2, 0x01)])).reg 0xF = 1 := by decide
theorem test_addReg_into_vf : (run 0x8F14 (withRegs [(0xF, 0xFF), (1, 0x02)])).reg 0xF = 1 := by decide
theorem test_sub_borrow :
    (run 0x8125 (withRegs [(1, 3), (2, 5)])).reg 1 = 0xFE ∧
    (run 0x8125 (withRegs [(1, 3), (2, 5)])).reg 0xF = 0 := by decide
theorem test_sub_vf_source :
    (run 0x81F5 (withRegs [(1, 5), (0xF, 3)])).reg 1 = 0x02 ∧
    (run 0x81F5 (withRegs [(1, 5), (0xF, 3)])).reg 0xF = 1 := by decide
theorem test_shr_ignores_y :
    (run 0x8126 (withRegs [(1, 0x04), (2, 0xFF)])).reg 1 = 0x02 ∧
    (run 0x8126 (withRegs [(1, 0x04), (2, 0xFF)])).reg 2 = 0xFF ∧
    (run 0x8126 (withRegs [(1, 0x04), (2, 0xFF)])).reg 0xF = 0 := by decide
theorem test_shr_vf : (run 0x8F06 (withRegs [(0xF, 0x03)])).reg 0xF = 1 := by decide
theorem test_subn_borrow :
    (run 0x8127 (withRegs [(1, 5), (2, 3)])).reg 1 = 0xFE ∧
    (run 0x8127 (withRegs [(1, 5), (2, 3)])).reg 0xF = 0 := by decide
theorem test_subn_equal :
    (run 0x8127 (withRegs [(1, 9), (2, 9)])).reg 1 = 0x00 ∧
    (run 0x8127 (withRegs [(1, 9), (2, 9)])).reg 0xF = 1 := by decide
theorem test_shl_high_bit :
    (run 0x810E (withRegs [(1, 0xFF)])).reg 1 = 0xFE ∧ (run 0x810E (withRegs [(1, 0xFF)])).reg 0xF = 1 := by decide
theorem test_shl_vf : (run 0x8F0E (withRegs [(0xF, 0x01)])).reg 0xF = 0 := by decide
theorem test_rnd_mask : (run 0xC10F { State.reset with rnd := 0xA7 }).reg 1 = 0x07 := by decide

/-! ## The address register and memory (L1, L2-d) -/

theorem test_ldI : (run 0xAFFF State.reset).i = 0x0FFF := by decide
theorem test_addI_leaves_range :
    (run 0xF11E { withRegs [(1, 0xFF)] with i := 0x0F01 }).i = 0x1000 ∧
    (run 0xF11E { withRegs [(1, 0xFF)] with i := 0x0F01 }).reg 0xF = 1 := by decide
theorem test_addI_vf_operand :
    (run 0xFF1E { withRegs [(0xF, 0x05)] with i := 0x0100 }).i = 0x0105 ∧
    (run 0xFF1E { withRegs [(0xF, 0x05)] with i := 0x0100 }).reg 0xF = 0 := by decide
theorem test_ldF_digit : (run 0xF329 (withRegs [(3, 0x0A)])).i = 0x0032 := by decide
theorem test_ldF_all_bits : (run 0xF329 (withRegs [(3, 0xFF)])).i = 0x04FB := by decide
theorem test_ldB_digits :
    (run 0xF033 { withRegs [(0, 234)] with i := 0x300 }).mem.byteAt 0x300 = 2 ∧
    (run 0xF033 { withRegs [(0, 234)] with i := 0x300 }).mem.byteAt 0x301 = 3 ∧
    (run 0xF033 { withRegs [(0, 234)] with i := 0x300 }).mem.byteAt 0x302 = 4 := by decide
theorem test_ldB_out_of_range :
    (run 0xF033 { withRegs [(0, 123)] with i := 0xFFE }).fault = some .addressOutOfRange ∧
    (run 0xF033 { withRegs [(0, 123)] with i := 0xFFE }).mem.byteAt 0xFFE = 0 ∧
    (run 0xF033 { withRegs [(0, 123)] with i := 0xFFE }).pc = 0x200 := by decide
theorem test_ldMemVx_last_byte :
    (run 0xF055 { withRegs [(0, 0x9C)] with i := 0xFFF }).mem.byteAt 0xFFF = 0x9C ∧
    (run 0xF055 { withRegs [(0, 0x9C)] with i := 0xFFF }).i = 0xFFF := by decide
theorem test_ldMemVx_out_of_range :
    (run 0xF155 { withRegs [(0, 0x9C)] with i := 0xFFF }).fault = some .addressOutOfRange ∧
    (run 0xF155 { withRegs [(0, 0x9C)] with i := 0xFFF }).mem.byteAt 0xFFF = 0 := by decide
theorem test_ldVxMem_font :
    (run 0xFF65 State.reset).v =
      #v[0xF0, 0x90, 0x90, 0x90, 0xF0, 0x20, 0x60, 0x20, 0x20, 0x70, 0xF0, 0x10, 0xF0, 0x80, 0xF0, 0xF0] := by decide
theorem test_ldVxMem_out_of_range :
    (run 0xF165 { withRegs [(0, 7)] with i := 0xFFF }).fault = some .addressOutOfRange ∧
    (run 0xF165 { withRegs [(0, 7)] with i := 0xFFF }).reg 0 = 7 := by decide

/-! ## Display (L2-e) -/

theorem test_cls :
    (run 0x00E0 (light [(0, 0), (63, 31)] State.reset)).fb = State.reset.fb ∧
    (run 0x00E0 (light [(0, 0), (63, 31)] State.reset)).output = .status .needsRedraw := by decide
theorem test_drw_wraps :
    (run 0xD011 (poke 0x300 [0xC0] { withRegs [(0, 0xFF), (1, 0xFF)] with i := 0x300 })).fb =
      (light [(63, 31), (0, 31)] State.reset).fb := by decide
theorem test_drw_collision :
    (run 0xD011 (light [(1, 0)] (poke 0x300 [0xC0] { State.reset with i := 0x300 }))).fb =
      (light [(0, 0)] State.reset).fb ∧
    (run 0xD011 (light [(1, 0)] (poke 0x300 [0xC0] { State.reset with i := 0x300 }))).reg 0xF = 1 := by decide

/-! ## Keys and timers (L2-f) -/

theorem test_skp_pressed : (run 0xE09E { withRegs [(0, 7)] with pc := 0x206, key := some 7 }).pc = 0x20A := by decide
theorem test_skp_all_bits : (run 0xE09E { withRegs [(0, 0x17)] with pc := 0x206, key := some 7 }).pc = 0x208 := by decide
theorem test_sknp_pressed : (run 0xE0A1 { withRegs [(0, 7)] with pc := 0x206, key := some 7 }).pc = 0x208 := by decide
theorem test_sknp_no_key : (run 0xE0A1 { withRegs [(0, 7)] with pc := 0x206 }).pc = 0x20A := by decide
theorem test_ldVxK_waits :
    (run 0xF30A (withRegs [(3, 0xFF)])).output = .status .awaitingKey ∧
    (run 0xF30A (withRegs [(3, 0xFF)])).pc = 0x200 ∧ (run 0xF30A (withRegs [(3, 0xFF)])).reg 3 = 0xFF := by decide
theorem test_ldVxK_key :
    (run 0xF30A { State.reset with key := some 0xB }).reg 3 = 0x0B ∧
    (run 0xF30A { State.reset with key := some 0xB }).pc = 0x202 := by decide
theorem test_ldVxDt : (run 0xF207 { State.reset with dt := 0x3C }).reg 2 = 0x3C := by decide
theorem test_ldDtVx : (run 0xF215 (withRegs [(2, 0x3C)])).dt = 0x3C := by decide
theorem test_ldStVx : (run 0xF218 (withRegs [(2, 0x02)])).st = 0x02 := by decide

theorem test_tick_last_sound :
    (event .tick { State.reset with st := 1 }).output = .sound true ∧
    (event .tick { State.reset with st := 1 }).st = 0 := by decide
theorem test_tick_in_faulted_state :
    (event .tick { State.reset with fault := some .stackOverflow, dt := 5 }).dt = 4 ∧
    (event .tick { State.reset with fault := some .stackOverflow, dt := 5 }).output = .sound false := by decide

/-- R183's example: with ST = 2, three ticks answer 1, 1, 0, drawn or fixed. -/
theorem test_tick_answers :
    tickAnswers 3 2 = [true, true, false] ∧ (({ State.reset with st := 2 } : State).afterTicks 3).sounds = [true, true, false] := by
  decide

/-! ## Events, codes and the fetch (L2-g, R171, R178) -/

theorem test_fetch_last_word : (run 0x6A55 { State.reset with pc := 0xFFE }).reg 0xA = 0x55 := by decide
theorem test_fetch_beyond_memory :
    (event (.step none 0) { State.reset with pc := 0xFFF }).output = .fault .addressOutOfRange ∧
    (event (.step none 0) { State.reset with pc := 0xFFF }).pc = 0xFFF := by decide
theorem test_fbRead : (event (.fbRead 63 31) (light [(63, 31)] State.reset)).output = .pixel true := by decide
theorem test_faultCode :
    faultCode none = 0 ∧ faultCode (some .addressOutOfRange) = 1 ∧ faultCode (some .stackOverflow) = 2 ∧
    faultCode (some .stackUnderflow) = 3 := by decide
theorem test_statusCode :
    statusCode .continue = 0 ∧ statusCode .needsRedraw = 1 ∧ statusCode .awaitingKey = 2 ∧ statusCode .halted = 3 := by
  decide

/-- The image 12 00 of L2-g, by the law of the loaded memory. -/
theorem test_reset_image :
    (Memory.ofFn (resetByte Config.font 0 [0x12, 0x00])).byteAt 0x200 = 0x12 ∧
    (Memory.ofFn (resetByte Config.font 0 [0x12, 0x00])).byteAt 0x04F = 0x80 := by
  rw [Memory.byteAt_ofFn _ (by decide), Memory.byteAt_ofFn _ (by decide)]; decide

/-- The first instruction after reset, with no event fixed, runs in the very next step. -/
theorem test_withFetchWord_runs :
    ∃ t, step (State.reset.withFetchWord 16 0x6A2F) = .next t ∧ t.reg 0xA = 0x2F ∧ t.pc = 0x202 := ⟨_, rfl, rfl, rfl⟩

/-! ## Witnesses: values that meet a statement's hypotheses, clause by clause -/

/-! ### Encoding -/

theorem test_witness_DecodeOfEncode : (Instr.unrecognized 0xFFFF).wellFormed = true ∧ (Instr.drw 15 15 15).wellFormed = true := by
  decide
theorem test_witness_UnrecognizedIffUnmatched :
    (∀ r ∈ opcodeMap, (0x8ABF : Word) &&& r.mask ≠ r.pattern) ∧ ∃ r ∈ opcodeMap, (0x8AB4 : Word) &&& r.mask = r.pattern := by
  decide
theorem test_witness_OpcodeRowsDisjoint :
    (⟨"8xy4", 0xF00F, 0x8004⟩ : OpcodeRow) ∈ opcodeMap ∧ OpcodeRow.accepts ⟨"8xy4", 0xF00F, 0x8004⟩ 0x8AB4 = true := by
  decide
theorem test_witness_UnrecognizedIsNoOp : unmatched 0x0000 = true ∧ unmatched 0xFFFF = true := by decide
theorem test_witness_SkipsOnRegisters : (1 : Nibble) ≠ 0 ∧ (15 : Nibble) ≠ 0 := by decide

/-! ### Events, the step cycle, faults -/

theorem test_witness_StepTakesNextEvent :
    (stepping State.reset).pending = .step none 0 :: [] ∧ State.reset.pending = [] := ⟨rfl, rfl⟩

/-- A fetch at the last word, in both forms of the schedule. -/
theorem test_witness_StepRunsDecoded :
    (poke 0xFFE [0x6A, 0x55] { State.reset with pc := 0xFFE }).fault = none ∧
    (poke 0xFFE [0x6A, 0x55] { State.reset with pc := 0xFFE }).pc.toNat + 1 ≤ 4095 ∧
    decode [(poke 0xFFE [0x6A, 0x55] { State.reset with pc := 0xFFE }).mem.byteAt 0xFFE,
      (poke 0xFFE [0x6A, 0x55] { State.reset with pc := 0xFFE }).mem.byteAt 0xFFF] = .ok (.ldImm 0xA 0x55, []) ∧
    (Instr.ldImm 0xA 0x55).wellFormed = true ∧
    (poke 0xFFE [0x6A, 0x55] { State.reset with pc := 0xFFE }).pending = [] ∧
    (stepping (poke 0xFFE [0x6A, 0x55] { State.reset with pc := 0xFFE })).pending = .step none 0 :: [] := by decide

/-- An empty schedule, and a state whose step from it gives a next state. -/
theorem test_witness_DrawnStepIsItsEvents :
    State.reset.pending = [] ∧ ∃ t, step State.reset = .next t := ⟨rfl, _, rfl⟩

theorem test_witness_FetchIsBigEndianAndBounded : 4095 + 1 > 4095 ∧ 4094 + 1 ≤ 4095 := by decide

/-- The fetch row at the first address that faults and the last that does not, and the rows of the instructions. -/
theorem test_witness_FaultCausesComplete :
    State.reset.fault = none ∧ ({ State.reset with pc := 0xFFF } : State).pc.toNat + 1 > 4095 ∧
    ({ State.reset with pc := 0xFFE } : State).pc.toNat + 1 ≤ 4095 := by decide

theorem test_witness_FaultChangesNothingElse :
    faultOf .ret State.reset = some .stackUnderflow ∧
    faultOf (.call 0) { State.reset with sp := 16 } = some .stackOverflow ∧
    faultOf (.drw 0 1 1) { State.reset with i := 0x1000 } = some .addressOutOfRange ∧
    faultOf (.ldB 0) { State.reset with i := 0xFFE } = some .addressOutOfRange ∧
    faultOf (.ldMemVx 1) { State.reset with i := 0xFFF } = some .addressOutOfRange ∧
    faultOf (.ldVxMem 1) { State.reset with i := 0xFFF } = some .addressOutOfRange := by decide

theorem test_witness_FaultChangesNothingElse_fetch :
    (stepping { State.reset with pc := 0xFFF }).pending = .step none 0 :: [] ∧
    (stepping { State.reset with pc := 0xFFF }).fault = none ∧
    (stepping { State.reset with pc := 0xFFF }).pc.toNat + 1 > 4095 := by decide

theorem test_witness_FaultLatchIsSticky :
    ({ State.reset with fault := some .stackUnderflow, pending := [.tick] } : State).fault = some .stackUnderflow ∧
    (∃ t, step { State.reset with fault := some .stackUnderflow, pending := [.tick] } = .next t) ∧
    (∀ image es, ({ State.reset with fault := some .stackUnderflow, pending := [.tick] } : State).pending ≠
      .reset image :: es) ∧
    (stepping { State.reset with fault := some .stackUnderflow }).pending = .step none 0 :: [] :=
  ⟨rfl, ⟨_, rfl⟩, fun _ _ h => (by cases h), rfl⟩

theorem test_witness_TickCountsDown : ({ State.reset with pending := [.tick], st := 1 } : State).pending = .tick :: [] := rfl

theorem test_witness_SoundForExactlyStTicks :
    ({ State.reset with pending := [.tick, .tick, .tick], st := 2 } : State).pending =
      List.replicate (2 + 1) .tick ++ [] := rfl

theorem test_witness_FbReadAnswersPixel :
    ({ State.reset with pending := [.fbRead 63 31] } : State).pending = .fbRead 63 31 :: [] := rfl

theorem test_witness_ResetLoadsImage :
    ([] : List Byte).length ≤ 3584 ∧ (List.replicate 3584 (0xFF : Byte)).length ≤ 3584 := by
  simp only [List.length_replicate, List.length_nil]; decide

theorem test_witness_ResetLoadsImage_event :
    ({ State.reset with pending := [.reset [0x12, 0x00]] } : State).pending = .reset [0x12, 0x00] :: [] ∧
    ([0x12, 0x00] : List Byte).length ≤ 3584 := by decide

/-- The last image that fits and the first that does not. -/
theorem test_witness_ResetRefusesLargeImage :
    ({ State.reset with pending := [.reset (List.replicate 3585 0)] } : State).pending =
      .reset (List.replicate 3585 0) :: [] ∧
    (List.replicate 3585 (0 : Byte)).length + 0x200 > 4096 ∧
    ¬(List.replicate 3584 (0 : Byte)).length + 0x200 > 4096 := by
  refine ⟨rfl, ?_, ?_⟩ <;> rw [List.length_replicate] <;> decide

/-! ### Whole-machine rules -/

theorem test_witness_StepKeepsInvariant :
    (stepping (withRegs [(0, 7)])).Inv ∧ ∃ t, step (stepping (withRegs [(0, 7)])) = .next t :=
  ⟨⟨Memory.wf_nil, by decide, by decide, by decide, fun _ h => (by cases h)⟩, _, rfl⟩

theorem test_witness_NothingElseStops :
    ∀ image es, (stepping State.reset).pending = .reset image :: es → image.length ≤ 3584 := fun _ _ h => by cases h

/-- Each clause of the table of PC: a fault, the loads, a wait, a skip taken, the default. -/
theorem test_witness_PcTableComplete_fault :
    ∃ t, exec .ret State.reset = .next t ∧ (faultOf .ret State.reset).isSome = true := ⟨_, rfl, rfl⟩
theorem test_witness_PcTableComplete_loads :
    (∃ t, exec (.jp 0xFFF) State.reset = .next t ∧ faultOf (.jp 0xFFF) State.reset = none) ∧
    (∃ t, exec (.call 0xFFF) { State.reset with sp := 15 } = .next t ∧
      faultOf (.call 0xFFF) { State.reset with sp := 15 } = none) ∧
    (∃ t, exec (.jpV0 0xFFF) State.reset = .next t ∧ faultOf (.jpV0 0xFFF) State.reset = none) ∧
    (∃ t, exec .ret { State.reset with sp := 16 } = .next t ∧ faultOf .ret { State.reset with sp := 16 } = none ∧
      ({ State.reset with sp := 16 } : State).sp.val - 1 < 16) :=
  ⟨⟨_, rfl, rfl⟩, ⟨_, rfl, rfl⟩, ⟨_, rfl, rfl⟩, ⟨_, rfl, rfl, by decide⟩⟩
theorem test_witness_PcTableComplete_wait :
    ∃ t, exec (.ldVxK 0) State.reset = .next t ∧ faultOf (.ldVxK 0) State.reset = none ∧ State.reset.key = none :=
  ⟨_, rfl, rfl, rfl⟩
theorem test_witness_PcTableComplete_skip :
    ∃ t, exec (.seImm 0 0) State.reset = .next t ∧ faultOf (.seImm 0 0) State.reset = none ∧
      skipTaken (.seImm 0 0) State.reset := ⟨_, rfl, rfl, rfl⟩
theorem test_witness_PcTableComplete_default :
    ∃ t, exec (.seImm 0 1) State.reset = .next t ∧ faultOf (.seImm 0 1) State.reset = none ∧
      loadsPc (.seImm 0 1) = false ∧ ¬skipTaken (.seImm 0 1) State.reset ∧
      ¬((∃ x, Instr.seImm 0 1 = .ldVxK x) ∧ State.reset.key = none) :=
  ⟨_, rfl, rfl, rfl, by change ¬(State.reset.reg 0 = 1); decide, by rintro ⟨⟨_, h⟩, -⟩; cases h⟩

theorem test_witness_StatusTableComplete :
    (∃ t, exec .cls State.reset = .next t ∧ faultOf .cls State.reset = none) ∧
    (∃ t, exec .ret State.reset = .next t ∧ faultOf .ret State.reset = some .stackUnderflow) :=
  ⟨⟨_, rfl, rfl⟩, ⟨_, rfl, rfl⟩⟩

theorem test_witness_RegistersWrittenAsListed :
    (∃ t, exec (.ldVxMem 3) State.reset = .next t ∧ ¬mayWriteReg (.ldVxMem 3) State.reset 4) ∧
    (∃ t, exec (.ldVxK 0) State.reset = .next t ∧ ¬mayWriteReg (.ldVxK 0) State.reset 0) ∧
    (∃ t, exec (.ldVxMem 1) { State.reset with i := 0xFFF } = .next t ∧
      (faultOf (.ldVxMem 1) { State.reset with i := 0xFFF }).isSome = true) :=
  ⟨⟨_, rfl, by change ¬((4 : Nibble).toNat ≤ (3 : Nibble).toNat); decide⟩,
    ⟨_, rfl, fun h => h.2 rfl⟩, ⟨_, rfl, rfl⟩⟩

theorem test_witness_ComponentsWrittenAsListed :
    (∃ t, exec (.ldI 0xFFF) State.reset = .next t ∧ faultOf (.ldI 0xFFF) State.reset = none) ∧
    (∃ t, exec .ret State.reset = .next t ∧ (faultOf .ret State.reset).isSome = true) :=
  ⟨⟨_, rfl, rfl⟩, ⟨_, rfl, rfl⟩⟩

theorem test_witness_InputsReadOnlyWhereListed :
    (∃ t, exec (.rnd 0 0xFF) State.reset = .next t ∧ readsKey (.rnd 0 0xFF) = false) ∧
    (∃ t, exec (.skp 0) State.reset = .next t ∧ readsRnd (.skp 0) = false) :=
  ⟨⟨_, rfl, rfl⟩, ⟨_, rfl, rfl⟩⟩

/-- A jump to itself at the reset address, 12 00. -/
theorem test_witness_EndOfRunIsStable :
    (stepping (poke 0x200 [0x12, 0x00] State.reset)).ended ∧
    (stepping (poke 0x200 [0x12, 0x00] State.reset)).pending = .step none 0 :: [] := ⟨⟨rfl, rfl⟩, rfl⟩

/-! ### Control transfer -/

theorem test_witness_RetPopsPc :
    0 < ({ State.reset with sp := 1 } : State).sp.val ∧ 0 < ({ State.reset with sp := 16 } : State).sp.val ∧
    State.reset.sp.val = 0 := by decide
theorem test_witness_CallPushesNext :
    State.reset.sp.val < 16 ∧ ({ State.reset with sp := 15 } : State).sp.val < 16 ∧
    ({ State.reset with sp := 16 } : State).sp.val = 16 := by decide

/-- A call with 15 entries held, and any state with the same stack after it. -/
theorem test_witness_RetAfterCallResumes :
    ∃ t, exec (.call 0x300) { State.reset with sp := 15 } = .next t ∧ t.fault = none ∧
      ∃ u : State, u.sp = t.sp ∧ u.stack = t.stack ∧ u.pc ≠ t.pc :=
  ⟨_, rfl, rfl, { State.reset with
    sp := 16, stack := State.reset.stack.set 15 0x202, pc := 0x400 }, rfl, rfl, by decide⟩

theorem test_witness_SixteenCallsAndReturns :
    State.reset.sp.val = 0 ∧ State.reset.fault = none ∧ (List.replicate 16 (0x200 : Addr)).length = 16 := by decide

/-! ### The address register and memory -/

theorem test_witness_StoreDecimalDigits :
    ({ State.reset with i := 0xFFD } : State).i.toNat + 2 ≤ 4095 ∧
    ({ State.reset with i := 0xFFE } : State).i.toNat + 2 > 4095 := by decide
theorem test_witness_StoreRegisters :
    ({ State.reset with i := 0xFF0 } : State).i.toNat + (15 : Nibble).toNat ≤ 4095 ∧
    ({ State.reset with i := 0xFF1 } : State).i.toNat + (15 : Nibble).toNat > 4095 := by decide
theorem test_witness_LoadRegisters :
    ({ State.reset with i := 0xFFF } : State).i.toNat + (0 : Nibble).toNat ≤ 4095 ∧
    ({ State.reset with i := 0xFFF } : State).i.toNat + (1 : Nibble).toNat > 4095 := by decide

/-- V0..V3 at 0x300 and the register file cleared before the load, as in L1-7. -/
theorem test_witness_StoreLoadRoundTrip :
    ({ withRegs [(0, 0x11), (3, 0x44)] with i := 0x300 } : State).i.toNat + (3 : Nibble).toNat ≤ 4095 ∧
    ∃ t, exec (.ldMemVx 3) { withRegs [(0, 0x11), (3, 0x44)] with i := 0x300 } = .next t ∧
      ∃ u : State, u.mem = t.mem ∧ u.i = t.i ∧ u.reg 3 = 0 :=
  ⟨by decide, _, rfl, { State.reset with
    i := 0x300, mem := [(0x300, 0x11), (0x303, 0x44)] }, by decide, rfl, rfl⟩

/-- The last two bytes of memory. -/
theorem test_witness_StoredWordIsFetched :
    1 ≤ (1 : Nibble).toNat ∧ ({ withRegs [(0, 0x60), (1, 0x77)] with i := 0xFFE } : State).i.toNat + (1 : Nibble).toNat ≤ 4095 ∧
    ∃ t, exec (.ldMemVx 1) { withRegs [(0, 0x60), (1, 0x77)] with i := 0xFFE } = .next t :=
  ⟨by decide, by decide, _, rfl⟩

/-! ### Display -/

/-- One row at the last byte fits and two do not; no rows fit anywhere. -/
theorem test_witness_DrawXorsAndDetectsCollision :
    SpriteFits { State.reset with i := 0xFFF } 1 ∧ SpriteFits { State.reset with i := 0xFFFF } 0 ∧
    ¬SpriteFits { State.reset with i := 0xFFF } 2 := by
  simp only [SpriteFits]; decide

/-- The font's first row, 0xF0, over a clear screen: a covered pixel, one not covered, and no collision. -/
theorem test_witness_DrawXorsAndDetectsCollision_pixels :
    SpriteCovers State.reset 0 0 1 (3, 0) ∧ ¬SpriteCovers State.reset 0 0 1 (4, 0) ∧
    ¬(∃ p, SpriteCovers State.reset 0 0 1 p ∧ State.reset.fb.lit p = true) ∧
    (∃ p, SpriteCovers (light [(3, 0)] State.reset) 0 0 1 p ∧ (light [(3, 0)] State.reset).fb.lit p = true) ∧
    (1 : Nibble) ≠ 0xF := by
  refine ⟨⟨0, by decide, 3, by decide, by decide, by decide, by decide⟩, ?_, ?_,
    ⟨(3, 0), ⟨0, by decide, 3, by decide, by decide, by decide, by decide⟩, by decide⟩, by decide⟩
  · rintro ⟨r, hr, c, hc, hb, hx, -⟩
    have hr0 : r = 0 := Nat.lt_one_iff.1 hr
    subst hr0
    have hx' : 4 = (0 + c) % 64 := hx
    have hc4 : c = 4 := by omega
    subst hc4
    revert hb; decide
  · rintro ⟨p, -, hl⟩
    have h0 : State.reset.fb.lit p = false := by
      change Framebuffer.lit (Vector.replicate 64 (Vector.replicate 32 false)) p = false
      simp [Framebuffer.lit]
    rw [h0] at hl; cases hl

/-- The second draw from the state the first left, through other registers that hold the same coordinates. -/
theorem test_witness_DrawTwiceRestores :
    SpriteFits State.reset 1 ∧ ∃ t, exec (.drw 0 1 1) State.reset = .next t ∧
      ∃ u : State, u.fb = t.fb ∧ u.mem = State.reset.mem ∧ u.i = State.reset.i ∧ u.reg 2 = State.reset.reg 0 ∧
        u.reg 3 = State.reset.reg 1 :=
  ⟨.inr (by decide), _, rfl, { State.reset with
    fb := (State.reset.fb.draw false (spritePlaces 0 0 0 [0xF0])).1 }, rfl, rfl, rfl, rfl, rfl⟩

/-! ### Keypad and timers -/

/-- A key that is all of Vx; no key at all; key 7 against 0x17. -/
theorem test_witness_SkipsOnKey :
    (({ withRegs [(0, 15)] with key := some 15 } : State).key = some 15 ∧
      (15 : Nibble).toNat = (({ withRegs [(0, 15)] with key := some 15 } : State).reg 0).toNat) ∧
    (∀ k, State.reset.key = some k → k.toNat ≠ (State.reset.reg 0).toNat) ∧
    (∀ k, ({ withRegs [(0, 0x17)] with key := some 7 } : State).key = some k →
      k.toNat ≠ (({ withRegs [(0, 0x17)] with key := some 7 } : State).reg 0).toNat) :=
  ⟨by decide, fun _ h => (by cases h), fun _ h => (by cases h; decide)⟩

theorem test_witness_KeyWait :
    State.reset.key = none ∧ ({ State.reset with key := some 0 } : State).key = some 0 := ⟨rfl, rfl⟩

end Sys2Proof.Tests
end

section
/-! PROOFS of the statements of 00_scope.md: the next event of a step (R5, R6), the read of a pixel (R7, R66), and which
instructions read the inputs of their step (R7, R38, R186). -/

namespace Sys2Proof.Machine

open Sys2Proof

/-! ## The next event -/

/-- With an event fixed, a step handles it in the state with the rest of the schedule. -/
theorem step_of_pending {s : State} {e : Event} {es : List Event} (h : s.pending = e :: es) :
    step s = handle e { s with pending := es } := by
  simp only [step, nextEvent, h]

/-- With no event fixed, a step handles a Step after some ticks, both drawn from the free values. -/
theorem step_of_no_pending {s : State} (h : s.pending = []) :
    step s = handle (.step (Config.key s.draws) (Config.rnd s.draws))
      { s.afterTicks (Config.ticks s.draws) with draws := s.draws + 1 } := by
  simp only [step, nextEvent, h]

/-- Settles O6, from the two forms of the schedule. -/
theorem stepTakesNextEvent : Obligations.StepTakesNextEvent :=
  ⟨fun _ _ _ h => step_of_pending h, fun _ h => ⟨_, _, _, step_of_no_pending h⟩⟩

/-! ## The read of a pixel -/

/-- An FbRead answers the pixel and leaves the rest of the state (R7, R66). -/
theorem handle_fbRead (x : Fin 64) (y : Fin 32) (s : State) :
    handle (.fbRead x y) s = .next { s with output := .pixel (s.fb[x][y]) } := rfl

/-- Settles O14: the step handles the FbRead. -/
theorem fbReadAnswersPixel : Obligations.FbReadAnswersPixel := by
  intro s x y es h
  rw [step_of_pending h, handle_fbRead]

/-! ## The inputs of a step

Putting other inputs in place commutes with every operation that does not read them, so with every instruction that does not.
-/

/-- The state with these inputs of the Step event in progress. -/
def State.withInputs (s : State) (key : Option Nibble) (rnd : Byte) : State := { s with key := key, rnd := rnd }

@[simp] theorem State.withInputs_key (s : State) (key : Option Nibble) (rnd : Byte) : (s.withInputs key rnd).key = key := rfl
@[simp] theorem State.withInputs_rnd (s : State) (key : Option Nibble) (rnd : Byte) : (s.withInputs key rnd).rnd = rnd := rfl

/-- The answer with these inputs in its next state. -/
def withInputsAfter (key : Option Nibble) (rnd : Byte) : Result → Result
  | .next t => .next (t.withInputs key rnd)
  | .fault f => .fault f
  | .refused r => .refused r

@[simp] theorem withInputsAfter_next (key : Option Nibble) (rnd : Byte) (t : State) :
    withInputsAfter key rnd (.next t) = .next (t.withInputs key rnd) := rfl

/-- How a step ends does not read the inputs: it is enough that the operation takes them over. -/
theorem finish_withInputs {r r' : Except Fault State} {key : Option Nibble} {rnd : Byte}
    (h : r' = r.map (·.withInputs key rnd)) (st : Status) (s : State) :
    finish st (s.withInputs key rnd) r' = withInputsAfter key rnd (finish st s r) := by
  subst h
  cases r <;> rfl

/-- A value that does not depend on the inputs, then a state made of it that takes them over. -/
theorem map_withInputs {α : Type} {f g : α → State} {key : Option Nibble} {rnd : Byte}
    (h : ∀ a, g a = (f a).withInputs key rnd) (r : Except Fault α) :
    r.map g = (r.map f).map (·.withInputs key rnd) := by
  cases r with
  | ok a => exact congrArg Except.ok (h a)
  | error e => rfl

/-- Writing a run of registers does not read the inputs. -/
theorem State.setRegs_withInputs (key : Option Nibble) (rnd : Byte) (bs : List Byte) :
    ∀ (s : State) (k : Nat), (s.withInputs key rnd).setRegs k bs = (s.setRegs k bs).withInputs key rnd := by
  induction bs with
  | nil => intro s k; rfl
  | cons b bs ih => intro s k; exact ih (s.setReg (BitVec.ofNat 4 k) b) (k + 1)

/-- Fx0A's effect reads the key and not the random byte. -/
theorem State.takeKey_withInputs (s : State) (x : Nibble) (rnd : Byte) :
    (s.withInputs s.key rnd).takeKey x = (s.takeKey x).withInputs s.key rnd := by
  simp only [State.takeKey, State.withInputs_key]
  cases s.key <;> rfl

/-- A push does not read the inputs. -/
theorem push_withInputs (v : Word) (s : State) (key : Option Nibble) (rnd : Byte) :
    push v (s.withInputs key rnd) = (push v s).map (·.withInputs key rnd) := by
  by_cases h : s.sp.val < 16 <;> simp [push, State.withInputs, h]

/-- A pop does not read the inputs. -/
theorem pop_withInputs (s : State) (key : Option Nibble) (rnd : Byte) :
    pop (s.withInputs key rnd) = (pop s).map fun r => (r.1, r.2.withInputs key rnd) := by
  by_cases h : 0 < s.sp.val <;> simp [pop, State.withInputs, h]

/-- With an input replaced that it does not read, an instruction does the same and hands the new one on (R186). The arms
left to the last case complete without reading an input. -/
theorem exec_withInputs {i : Instr} {s : State} {key : Option Nibble} {rnd : Byte}
    (hkey : readsKey i = true → key = s.key) (hrnd : readsRnd i = true → rnd = s.rnd) :
    exec i (s.withInputs key rnd) = withInputsAfter key rnd (exec i s) := by
  cases i with
  | ret =>
    refine finish_withInputs ?_ _ _
    rw [pop_withInputs]; cases pop s <;> rfl
  | call nnn =>
    refine finish_withInputs ?_ _ _
    rw [show (s.withInputs key rnd).pc = s.pc from rfl, push_withInputs]; cases push (s.pc + 2) s <;> rfl
  | drw x y n => refine finish_withInputs (map_withInputs (fun _ => ?_) _) _ _; rfl
  | ldB x => refine finish_withInputs (map_withInputs (fun _ => ?_) _) _ _; rfl
  | ldMemVx x => refine finish_withInputs (map_withInputs (fun _ => ?_) _) _ _; rfl
  | ldVxMem x =>
    refine finish_withInputs (map_withInputs (fun bs => ?_) _) _ _
    rw [State.setRegs_withInputs]; rfl
  | skp x => rw [hkey rfl]; rfl
  | sknp x => rw [hkey rfl]; rfl
  | ldVxK x =>
    rw [hkey rfl]
    exact congrArg (complete (if s.key.isSome then .continue else .awaitingKey)) (s.takeKey_withInputs x rnd)
  | rnd x kk => rw [hrnd rfl]; rfl
  | _ => rfl

/-- The next state of an instruction holds the inputs of its step: those it was given are the ones it hands on. -/
theorem exec_keeps_inputs {i : Instr} {s t : State} (h : exec i s = .next t) : t.key = s.key ∧ t.rnd = s.rnd := by
  have e : exec i s = withInputsAfter s.key s.rnd (exec i s) := exec_withInputs (fun _ => rfl) (fun _ => rfl)
  rw [h, withInputsAfter_next] at e
  injection e with e
  rw [e, State.withInputs_key, State.withInputs_rnd]
  exact ⟨rfl, rfl⟩

/-- Settles O25: one input is replaced, the other stays the step's own. -/
theorem inputsReadOnlyWhereListed : Obligations.InputsReadOnlyWhereListed := by
  intro i s t key rnd h
  obtain ⟨hkey, hrnd⟩ := exec_keeps_inputs h
  constructor
  · intro hreads
    calc exec i (s.withInputs key s.rnd)
      _ = withInputsAfter key s.rnd (exec i s) := exec_withInputs (fun hr => by simp [hr] at hreads) (fun _ => rfl)
      _ = .next (t.withInputs key t.rnd) := by rw [h, hrnd, withInputsAfter_next]
  · intro hreads
    calc exec i (s.withInputs s.key rnd)
      _ = withInputsAfter s.key rnd (exec i s) := exec_withInputs (fun _ => rfl) (fun hr => by simp [hr] at hreads)
      _ = .next (t.withInputs t.key rnd) := by rw [h, hkey, withInputsAfter_next]

end Sys2Proof.Machine
end

section
/-! PROOFS of the statements of 10_state.md: the state right after reset (R39), what one instruction does, said once for all
of them (R72, R174), and from it PC (R27), the general registers (R23), the written components (R20) and the invariant that
every step keeps (R28, R102, R174, R178). -/

namespace Sys2Proof.Machine

open Sys2Proof

/-! ## What an instruction does

An instruction either takes the fault that `faultOf` names or completes with the status that `statusOf` names. What it leaves
then is split into PC and the rest: `nextPc` and `effectOf` list the two, and `exec_eq_finish` ties them to the meanings. -/

/-- The test of a conditional skip as the meanings compute it; false for every other instruction. -/
def skips (i : Instr) (s : State) : Bool :=
  match i with
  | .seImm x kk => s.reg x == kk
  | .sneImm x kk => s.reg x != kk
  | .seReg x y => s.reg x == s.reg y
  | .sneReg x y => s.reg x != s.reg y
  | .skp x => s.keyMatches x
  | .sknp x => !s.keyMatches x
  | _ => false

/-- PC after an instruction that does not fault (R27). -/
def nextPc (i : Instr) (s : State) : Word :=
  match i with
  | .jp nnn | .call nnn => absolute nnn
  | .jpV0 nnn => s.offsetTarget nnn
  | .ret => s.stack[s.sp.val - 1]
  | .ldVxK _ => if s.key = none then s.pc else s.pc + 2
  | _ => s.pc + if skips i s then 4 else 2

/-- What an instruction that does not fault leaves of the state, PC and the answer aside. -/
def effectOf (i : Instr) (s : State) : State :=
  match i with
  | .ldImm x kk => s.setReg x kk
  | .addImm x kk => s.setReg x (s.reg x + kk)
  | .ldReg x y => s.setReg x (s.reg y)
  | .orReg x y => s.setReg x (s.reg x ||| s.reg y)
  | .andReg x y => s.setReg x (s.reg x &&& s.reg y)
  | .xorReg x y => s.setReg x (s.reg x ^^^ s.reg y)
  | .rnd x kk => s.setReg x (s.rnd &&& kk)
  | .ldVxDt x => s.setReg x s.dt
  | .ldVxK x => { s with v := (s.takeKey x).v }
  | .addReg x y => s.setRegFlag x (s.reg x + s.reg y) (carryFlag (s.reg x) (s.reg y))
  | .sub x y => s.setRegFlag x (s.reg x - s.reg y) (noBorrowFlag (s.reg x) (s.reg y))
  | .shr x _ => s.setRegFlag x (s.reg x >>> 1) (lowBitFlag (s.reg x))
  | .subn x y => s.setRegFlag x (s.reg y - s.reg x) (noBorrowFlag (s.reg y) (s.reg x))
  | .shl x _ => s.setRegFlag x (s.reg x <<< 1) (highBitFlag (s.reg x))
  | .addI x => { s with i := s.indexSum x }.setReg vf (rangeFlag s.i (s.reg x))
  | .ldI nnn => { s with i := absolute nnn }
  | .ldF x => { s with i := glyphAddr (s.reg x) }
  | .ldB x => { s with mem := s.mem.setBytes s.i.toNat (decimalDigits (s.reg x)) }
  | .ldMemVx x => { s with mem := s.mem.setBytes s.i.toNat (s.regsTo x) }
  | .ldVxMem x => { s with v := (s.setRegs 0 ((List.range (x.toNat + 1)).map fun k => s.mem.byteAt (s.i.toNat + k))).v }
  | .drw x y n => s.drawRows (s.reg x) (s.reg y) ((List.range n.toNat).map fun k => s.mem.byteAt (s.i.toNat + k))
  | .cls => { s with fb := Framebuffer.clear }
  | .ldDtVx x => { s with dt := s.reg x }
  | .ldStVx x => { s with st := s.reg x }
  | .call _ =>
    { s with
      stack := if h : s.sp.val < 16 then s.stack.set s.sp.val (s.pc + 2) h else s.stack
      sp := ⟨min (s.sp.val + 1) 16, by omega⟩ }
  | .ret => { s with sp := ⟨s.sp.val - 1, by omega⟩ }
  | .jp _ | .jpV0 _ | .seImm _ _ | .sneImm _ _ | .seReg _ _ | .sneReg _ _ | .skp _ | .sknp _ | .unrecognized _ => s

/-- The state an instruction that does not fault leaves, before its answer. -/
def completedOf (i : Instr) (s : State) : State := { effectOf i s with pc := nextPc i s }

/-! ### The checks

Each checked operation once more, by the condition that the table of faults names. -/

/-- A load of at least one byte faults by the address of its last byte. -/
theorem Memory.load_cases_succ (m : Memory) (a n : Nat) :
    (a + n > 4095 ∧ m.load a (n + 1) = .error .addressOutOfRange) ∨
    (¬a + n > 4095 ∧ m.load a (n + 1) = .ok ((List.range (n + 1)).map fun k => m.byteAt (a + k))) := by
  simpa using m.load_cases a (n + 1)

/-- A store of at least one byte faults by the address of its last byte. -/
theorem Memory.store_cases_succ (m : Memory) (a : Nat) {n : Nat} {bs : List Byte} (hn : bs.length = n + 1) :
    (a + n > 4095 ∧ m.store a bs = .error .addressOutOfRange) ∨
    (¬a + n > 4095 ∧ m.store a bs = .ok (m.setBytes a bs)) := by
  simpa [hn] using m.store_cases a bs

/-- A push faults with 16 entries held and else has the effect of 2nnn. -/
theorem push_effectOf (nnn : Addr) (s : State) :
    (s.sp.val = 16 ∧ push (s.pc + 2) s = .error .stackOverflow) ∨
    (¬s.sp.val = 16 ∧ push (s.pc + 2) s = .ok (effectOf (.call nnn) s)) := by
  refine (push_cases (s.pc + 2) s).symm.imp_right fun ⟨h, e⟩ => ⟨h.ne, e.trans ?_⟩
  have hsp : min (s.sp.val + 1) 16 = s.sp.val + 1 := by omega
  simp only [effectOf, dif_pos h, hsp]

/-- A pop faults with an empty stack and else has the effect of 00EE and gives its next PC. -/
theorem pop_effectOf (s : State) :
    (s.sp.val = 0 ∧ pop s = .error .stackUnderflow) ∨
    (¬s.sp.val = 0 ∧ pop s = .ok (nextPc .ret s, effectOf .ret s)) :=
  (pop_cases s).symm.imp_right fun ⟨h, e⟩ => ⟨h.ne', e⟩

/-- Without a key Fx0A does nothing (R162). -/
theorem State.takeKey_of_none {s : State} (h : s.key = none) (x : Nibble) : s.takeKey x = s := by
  simp only [State.takeKey, h]

/-- With a key Fx0A writes it to Vx and advances (R162). -/
theorem State.takeKey_of_some {s : State} {k : Nibble} (h : s.key = some k) (x : Nibble) :
    s.takeKey x = (s.setReg x (keyByte k)).advance := by
  simp only [State.takeKey, h]

/-- What Fx0A does is to write the register file and PC. -/
theorem State.takeKey_eq (s : State) (x : Nibble) :
    s.takeKey x = { s with v := (s.takeKey x).v, pc := if s.key = none then s.pc else s.pc + 2 } := by
  rcases Option.eq_none_or_eq_some s.key with h | ⟨k, h⟩
  · rw [State.takeKey_of_none h, if_pos h]
  · rw [State.takeKey_of_some h, if_neg (by simp [h])]; rfl

/-- An operation that faults under a condition, with the meaning's use of its value after it, as the table of faults has it. -/
theorem map_eq_elim_of_checked {α : Type} {c : Prop} [Decidable c] {r : Except Fault α} {f : Fault} {a : α}
    (h : c ∧ r = .error f ∨ ¬c ∧ r = .ok a) (g : α → State) :
    r.map g = (if c then some f else none).elim (.ok (g a)) .error := by
  rcases h with ⟨hc, rfl⟩ | ⟨hc, rfl⟩
  · rw [if_pos hc]; rfl
  · rw [if_neg hc]; rfl

/-! ### The two ways an instruction ends -/

/-- Every instruction takes the fault the table names, or completes with the status the table names. -/
theorem exec_eq_finish (i : Instr) (s : State) :
    exec i s = finish (statusOf i s) s ((faultOf i s).elim (.ok (completedOf i s)) .error) := by
  cases i with
  | ret => exact congrArg (finish _ s) (map_eq_elim_of_checked (pop_effectOf s) _)
  | call nnn => exact congrArg (finish _ s) (map_eq_elim_of_checked (push_effectOf nnn s) _)
  | drw x y n => exact congrArg (finish _ s) (map_eq_elim_of_checked (s.mem.load_cases s.i.toNat n.toNat) _)
  | ldB x => exact congrArg (finish _ s) (map_eq_elim_of_checked (s.mem.store_cases_succ s.i.toNat rfl) _)
  | ldMemVx x =>
    exact congrArg (finish _ s) (map_eq_elim_of_checked (s.mem.store_cases_succ s.i.toNat (s.regsTo_length x)) _)
  | ldVxMem x =>
    refine congrArg (finish _ s) ((map_eq_elim_of_checked (s.mem.load_cases_succ s.i.toNat x.toNat) _).trans ?_)
    rw [State.setRegs_eq]; rfl
  | ldVxK x =>
    have hst : (if s.key.isSome then .continue else .awaitingKey) = statusOf (.ldVxK x) s := by
      unfold statusOf; cases s.key <;> rfl
    exact congrArg₂ complete hst (s.takeKey_eq x)
  | _ => rfl

/-- An instruction that faults changes the latch and the answer alone (R174). -/
theorem faults_of_faultOf {i : Instr} {s : State} {f : Fault} (h : faultOf i s = some f) : Faults i s f := by
  rw [Faults, exec_eq_finish, h]; rfl

/-- An instruction that does not fault completes. -/
theorem exec_of_faultOf_none {i : Instr} {s : State} (h : faultOf i s = none) :
    exec i s = .next ((completedOf i s).answer (.status (statusOf i s))) := by
  rw [exec_eq_finish, h]; rfl

/-- Everything the next state of an instruction can be. -/
theorem exec_cases {i : Instr} {s t : State} (h : exec i s = .next t) :
    (∃ f, faultOf i s = some f ∧ t = { s with fault := some f, output := .fault f }) ∨
    (faultOf i s = none ∧ t = (completedOf i s).answer (.status (statusOf i s))) := by
  cases hf : faultOf i s with
  | some f => exact .inl ⟨f, rfl, Host.Outcome.next.inj (h.symm.trans (faults_of_faultOf hf))⟩
  | none => exact .inr ⟨rfl, Host.Outcome.next.inj (h.symm.trans (exec_of_faultOf_none hf))⟩

/-! ## PC (R27) -/

/-- The meanings' test of a skip is the spec's condition. -/
theorem skips_iff (i : Instr) (s : State) : skips i s = true ↔ skipTaken i s := by
  cases i with
  | seImm x kk => exact beq_iff_eq
  | sneImm x kk => exact bne_iff_ne
  | seReg x y => exact beq_iff_eq
  | sneReg x y => exact bne_iff_ne
  | skp x => exact s.keyMatches_iff x
  | sknp x =>
    simp only [skips, skipTaken, Bool.not_eq_true', ← s.keyMatches_iff x, Bool.not_eq_true]
  | _ => exact ⟨nofun, False.elim⟩

/-- An instruction that neither loads PC nor waits for a key advances by four bytes when it skips and else by two. -/
theorem nextPc_of_not_loadsPc {i : Instr} {s : State} (hl : loadsPc i = false)
    (hk : ¬((∃ x, i = .ldVxK x) ∧ s.key = none)) : nextPc i s = s.pc + if skips i s then 4 else 2 := by
  cases i with
  | jp | call | jpV0 | ret => cases hl
  | ldVxK x => exact if_neg fun h => hk ⟨⟨x, rfl⟩, h⟩
  | _ => rfl

/-- An instruction whose skip condition holds advances by four bytes. -/
theorem nextPc_of_skipTaken {i : Instr} {s : State} (h : skipTaken i s) : nextPc i s = s.pc + 4 := by
  have hs : (if skips i s then 4 else 2 : Word) = 4 := if_pos ((skips_iff i s).2 h)
  rw [nextPc_of_not_loadsPc, hs]
  · cases i with
    | jp | call | jpV0 | ret => exact h.elim
    | _ => rfl
  · rintro ⟨⟨x, rfl⟩, -⟩
    exact h

/-- Settles O21: a fault keeps PC, and the clauses of the table are those of `nextPc`. -/
theorem pcTableComplete : Obligations.PcTableComplete := by
  intro i s t h
  rcases exec_cases h with ⟨f, hf, rfl⟩ | ⟨hf, rfl⟩
  · exact ⟨fun _ => rfl, fun hn => by simp [hf] at hn⟩
  · refine ⟨fun hs => by simp [hf] at hs, fun _ => ⟨?_, ?_, ?_, ?_, nextPc_of_skipTaken, fun hl hs hk => ?_⟩⟩
    · rintro nnn (rfl | rfl) <;> exact absolute_toNat nnn
    · rintro nnn rfl
      exact s.offsetTarget_toNat nnn
    · rintro rfl _
      rfl
    · rintro ⟨⟨x, rfl⟩, hk⟩
      exact if_pos hk
    · refine (nextPc_of_not_loadsPc hl hk).trans ?_
      rw [if_neg fun e => hs ((skips_iff i s).1 e)]

/-! ## General registers (R23) -/

/-- Fx0A leaves every register but Vx, and Vx too without a key. -/
theorem State.takeKey_reg_of_not {s : State} {x r : Nibble} (h : ¬(r = x ∧ s.key ≠ none)) :
    (s.takeKey x).reg r = s.reg r := by
  rcases Option.eq_none_or_eq_some s.key with hk | ⟨k, hk⟩
  · rw [State.takeKey_of_none hk]
  · rw [State.takeKey_of_some hk]
    exact (s.setReg_reg x _ r).trans (if_neg fun e => h ⟨e, by simp [hk]⟩)

/-- Without a fault, a register that the table does not list is unchanged. -/
theorem effectOf_reg {i : Instr} {s : State} {r : Nibble} (h : ¬mayWriteReg i s r) : (effectOf i s).reg r = s.reg r := by
  cases i with
  | ldImm x | addImm x | ldReg x | orReg x | andReg x | xorReg x | rnd x | ldVxDt x =>
    exact (s.setReg_reg x _ r).trans (if_neg h)
  | addReg x | sub x | shr x | subn x | shl x =>
    obtain ⟨hx, hvf⟩ := not_or.1 h
    exact (s.setRegFlag_reg x _ _ r).trans ((if_neg hvf).trans (if_neg hx))
  | drw | addI => exact (State.setReg_reg _ vf _ r).trans (if_neg h)
  | ldVxMem x =>
    have hr : ¬r.toNat ≤ x.toNat := h
    refine (s.setRegs_reg _ 0 r ?_).trans (if_neg ?_) <;> rw [List.length_map, List.length_range] <;> omega
  | ldVxK x => exact State.takeKey_reg_of_not h
  | _ => rfl

/-- Settles O23: a fault writes no register. -/
theorem registersWrittenAsListed : Obligations.RegistersWrittenAsListed := by
  intro i s t r h hr
  rcases exec_cases h with ⟨f, -, rfl⟩ | ⟨hf, rfl⟩
  · rfl
  · exact effectOf_reg (hr.resolve_right (by simp [hf]))

/-! ## The written components (R20) -/

/-- Without a fault, a component that the table does not list is unchanged. -/
theorem effectOf_frame (i : Instr) (s : State) : Frame (mayWrite i) s (effectOf i s) := by
  intro p hp
  cases p with
  | regs =>
    cases i with
    | ldImm | addImm | ldReg | orReg | andReg | xorReg | addReg | sub | shr | subn | shl | rnd | ldVxDt | ldVxK | ldVxMem
    | drw | addI => exact absurd (.head _) hp
    | _ => exact fun _ => rfl
  | index =>
    cases i with
    | ldI | ldF => exact absurd (.head _) hp
    | addI => exact absurd (.tail _ (.head _)) hp
    | _ => rfl
  | stack =>
    cases i with
    | call | ret => exact absurd (.head _) hp
    | _ => exact ⟨rfl, rfl⟩
  | delay =>
    cases i with
    | ldDtVx => exact absurd (.head _) hp
    | _ => rfl
  | sound =>
    cases i with
    | ldStVx => exact absurd (.head _) hp
    | _ => rfl
  | screen =>
    cases i with
    | cls => exact absurd (.head _) hp
    | drw => exact absurd (.tail _ (.head _)) hp
    | _ => exact fun _ => rfl
  | memory =>
    cases i with
    | ldB | ldMemVx => exact absurd (.head _) hp
    | _ => exact fun _ => rfl
  | latch => cases i <;> rfl
  | inputs => cases i <;> exact ⟨rfl, rfl, rfl, rfl, rfl⟩

/-- A frame does not speak of PC and the answer. -/
theorem Frame.of_pc_answer {touched : List Piece} {s t : State} (h : Frame touched s t) (pc : Word) (o : Output) :
    Frame touched s { t with pc := pc, output := o } := by
  intro p hp
  have hu := h p hp
  cases p <;> exact hu

/-- Taking a fault changes the latch and the answer alone. -/
theorem frame_fault (s : State) (f : Fault) : Frame [.latch] s { s with fault := some f, output := .fault f } := by
  intro p hp
  cases p with
  | latch => exact absurd (.head _) hp
  | regs | screen | memory => exact fun _ => rfl
  | stack => exact ⟨rfl, rfl⟩
  | inputs => exact ⟨rfl, rfl, rfl, rfl, rfl⟩
  | index | delay | sound => rfl

/-- Settles O24, from the frame of a completed instruction and that of a fault. -/
theorem componentsWrittenAsListed : Obligations.ComponentsWrittenAsListed := by
  intro i s t h
  rcases exec_cases h with ⟨f, hf, rfl⟩ | ⟨hf, rfl⟩
  · exact ⟨fun hn => by simp [hf] at hn, fun _ => ⟨rfl, frame_fault s f⟩⟩
  · exact ⟨fun _ => (effectOf_frame i s).of_pc_answer _ _, fun hs => by simp [hf] at hs⟩

/-! ## The state right after reset (R39) -/

/-- The first 80 bytes after a reset are the font (R51). -/
theorem resetByte_font (font : Vector Byte 80) (fill : Byte) (image : List Byte) {a : Nat} (h : a < 80) :
    resetByte font fill image a = font[a] := dif_pos h

/-- With an empty image every byte above the font is the fill (R51). -/
theorem resetByte_nil (font : Vector Byte 80) (fill : Byte) {a : Nat} (h : 80 ≤ a) :
    resetByte font fill [] a = fill := by
  rw [resetByte, dif_neg (by omega)]
  exact ite_self fill

/-- Settles O17: the registers and the screen are zero vectors, and empty memory reads as the reset bytes. -/
theorem resetStateValues : Obligations.ResetStateValues := by
  refine ⟨fun r => ?_, rfl, rfl, rfl, fun j => ?_, rfl, rfl, Framebuffer.lit_clear, rfl, rfl, fun a h => ?_, fun a h => ?_⟩
  · exact Vector.getElem_replicate _
  · exact Vector.getElem_replicate _
  · exact resetByte_font _ _ _ h
  · exact resetByte_nil _ _ h

/-- Settles O18: each field of the reset state is a value in its range. -/
theorem resetMeetsInvariant : Obligations.ResetMeetsInvariant :=
  ⟨Memory.wf_nil, by decide, by decide, nofun, nofun⟩

/-! ## The invariant (R28, R102, R174, R178) -/

/-- An answer that is neither Halted nor a fault keeps the invariant. -/
theorem State.Inv.answer {s : State} {o : Output} (h : s.Inv) (hh : o ≠ .status .halted) (hf : ∀ f, o ≠ .fault f) :
    (s.answer o).Inv := by
  obtain ⟨hmem, hpc, hstack, -, -⟩ := h
  exact ⟨hmem, hpc, hstack, hh, fun f e => absurd e (hf f)⟩

/-- Taking a fault latches what it answers, so it keeps the invariant. -/
theorem State.Inv.fault {s : State} (h : s.Inv) (f : Fault) : ({ s with fault := some f, output := .fault f } : State).Inv := by
  obtain ⟨hmem, hpc, hstack, -, -⟩ := h
  exact ⟨hmem, hpc, hstack, nofun, fun g e => by cases e; rfl⟩

/-- No instruction answers Halted (R178). -/
theorem statusOf_ne_halted (i : Instr) (s : State) : statusOf i s ≠ .halted := by
  cases i with
  | ldVxK x => by_cases h : s.key = none <;> simp [statusOf, h]
  | _ => exact nofun

/-- A store within memory keeps memory canonical, and no other instruction writes it. -/
theorem effectOf_mem_wf {i : Instr} {s : State} (hf : faultOf i s = none) (h : s.mem.wf) : (effectOf i s).mem.wf := by
  cases i with
  | ldB x =>
    have hr : ¬s.i.toNat + 2 > 4095 := fun hc => by simp [faultOf, hc] at hf
    exact Memory.wf_setBytes _ h (by rw [decimalDigits_length, Config.memSize]; omega)
  | ldMemVx x =>
    have hr : ¬s.i.toNat + x.toNat > 4095 := fun hc => by simp [faultOf, hc] at hf
    exact Memory.wf_setBytes _ h (by rw [State.regsTo_length, Config.memSize]; omega)
  | _ => exact h

/-- From a PC that was fetched from, the advance and the skip do not wrap. -/
theorem toNat_add_small {pc d : Word} (hpc : pc.toNat + 1 ≤ 4095) (hd : d.toNat ≤ 4) :
    (pc + d).toNat = pc.toNat + d.toNat := by
  rw [BitVec.toNat_add, Nat.mod_eq_of_lt (by omega)]

/-- A call pushes a return address in range, and no other instruction writes a slot (R102). -/
theorem effectOf_stack_le {i : Instr} {s : State} (hpc : s.pc.toNat + 1 ≤ 4095)
    (h : ∀ j : Fin 16, s.stack[j].toNat ≤ 0x1000) (j : Fin 16) : (effectOf i s).stack[j].toNat ≤ 0x1000 := by
  cases i with
  | call nnn =>
    by_cases hsp : s.sp.val < 16
    · simp only [effectOf, dif_pos hsp, Fin.getElem_fin, Vector.getElem_set]
      split
      · have h2 : (2 : Word).toNat = 2 := rfl
        rw [toNat_add_small hpc (by decide), h2]; omega
      · exact h j
    · simp only [effectOf, dif_neg hsp]
      exact h j
  | _ => exact h j

/-- PC after an instruction that was fetched is in the range of R28. -/
theorem nextPc_le {i : Instr} {s : State} (hpc : s.pc.toNat + 1 ≤ 4095)
    (h : ∀ j : Fin 16, s.stack[j].toNat ≤ 0x1000) : (nextPc i s).toNat ≤ 0x10FE := by
  have hadd (d : Word) (hd : d.toNat ≤ 4) : (s.pc + d).toNat ≤ 0x10FE := by
    rw [toNat_add_small hpc hd]; omega
  cases i with
  | jp nnn | call nnn => simp only [nextPc, absolute_toNat]; omega
  | jpV0 nnn => simp only [nextPc, State.offsetTarget_toNat]; omega
  | ret => exact (h ⟨s.sp.val - 1, by omega⟩).trans (by decide)
  | ldVxK x =>
    simp only [nextPc]
    split
    · omega
    · exact hadd 2 (by decide)
  | _ => exact hadd _ (by split <;> decide)

/-- An instruction that was fetched keeps the invariant. -/
theorem exec_keeps_inv {i : Instr} {s t : State} (hs : s.Inv) (hpc : s.pc.toNat + 1 ≤ 4095)
    (h : exec i s = .next t) : t.Inv := by
  rcases exec_cases h with ⟨f, -, rfl⟩ | ⟨hf, rfl⟩
  · exact hs.fault f
  · obtain ⟨hmem, -, hstack, -, -⟩ := hs
    refine ⟨effectOf_mem_wf hf hmem, nextPc_le hpc hstack, effectOf_stack_le hpc hstack, ?_, nofun⟩
    exact fun e => statusOf_ne_halted i s (Output.status.inj e)

/-- A Step event keeps the invariant: it runs an instruction only when the fetch reads within memory. -/
theorem stepEvent_keeps_inv {key : Option Nibble} {rnd : Byte} {s t : State} (hs : s.Inv)
    (h : stepEvent key rnd s = .next t) : t.Inv := by
  have hs' : ({ s with key := key, rnd := rnd } : State).Inv := hs
  rcases stepEvent_cases key rnd s with ⟨f, -, e⟩ | ⟨-, -, e⟩ | ⟨-, hpc, e⟩ <;> rw [e] at h
  · cases h
    exact hs'.fault f
  · cases h
    exact hs'.fault _
  · exact exec_keeps_inv hs' hpc h

/-- A Reset leaves the reset state's PC, stack and answer, and memory built anew. -/
theorem State.reload_inv (s : State) (font : Vector Byte 80) (fill : Byte) (image : List Byte) :
    (s.reload font fill image).Inv := by
  obtain ⟨-, hpc, hstack, hout, hfault⟩ := resetMeetsInvariant
  refine ⟨?_, hpc, hstack, hout, hfault⟩
  rw [State.reload_mem]; exact Memory.wf_ofFn _

/-- Every event keeps the invariant. -/
theorem handle_keeps_inv {e : Event} {s t : State} (hs : s.Inv) (h : handle e s = .next t) : t.Inv := by
  cases e with
  | step key rnd => exact stepEvent_keeps_inv hs h
  | tick =>
    cases h
    exact State.Inv.answer hs nofun nofun
  | reset image =>
    simp only [handle, resetEvent] at h
    split at h
    · cases h
    · cases h
      exact s.reload_inv _ _ _
  | fbRead x y =>
    cases h
    exact hs.answer nofun nofun

/-- Settles O19: the schedule and the ticks before a drawn Step touch nothing that the invariant speaks of. -/
theorem stepKeepsInvariant : Obligations.StepKeepsInvariant := by
  intro s t hs h
  rw [step] at h
  refine handle_keeps_inv ?_ h
  rcases nextEvent_cases s with ⟨e, es, -, hn⟩ | ⟨-, key, rnd, n, hn⟩ <;> rw [hn] <;> exact hs

end Sys2Proof.Machine
end

section
/-! PROOFS of the statements of 20_memory.md: the fetch (R53, R54, R56), and the fetch of what a register store has just
written (R64, R144). -/

namespace Sys2Proof.Machine

open Sys2Proof

/-! ## The fetch (R56) -/

/-- Within memory, the fetch gives the word whose high byte stands at the lower address (R53). -/
theorem Memory.fetch_bigEndian (m : Memory) {a : Nat} (h : a + 1 ≤ 4095) :
    ∃ w, m.fetch a = .ok w ∧ w.toNat = 256 * (m.byteAt a).toNat + (m.byteAt (a + 1)).toNat := by
  rcases m.fetch_cases a with ⟨hgt, -⟩ | ⟨-, hok⟩
  · omega
  · exact ⟨_, hok, wordOfBytes_toNat _ _⟩

/-- Settles O8, from the two cases of the fetch. -/
theorem fetchIsBigEndianAndBounded : Obligations.FetchIsBigEndianAndBounded := by
  refine fun m a => ⟨fun hgt => ?_, m.fetch_bigEndian⟩
  rcases m.fetch_cases a with ⟨-, herr⟩ | ⟨hle, -⟩
  · exact herr
  · omega

/-! ## The fetch of a stored word (R64) -/

/-- A run of registers stored from address `a` on reads back register by register (R144). -/
theorem Memory.byteAt_setBytes_regsTo (m : Memory) (a : Nat) (s : State) {x r : Nibble} (hr : r.toNat ≤ x.toNat) :
    (m.setBytes a (s.regsTo x)).byteAt (a + r.toNat) = s.reg r := by
  have hin : a ≤ a + r.toNat ∧ a + r.toNat < a + (s.regsTo x).length := by rw [State.regsTo_length]; omega
  rw [Memory.byteAt_setBytes, if_pos hin, Nat.add_sub_cancel_left, s.regsTo_getD x r hr]

/-- An Fx55 within memory leaves the memory with its registers written from `I` on. -/
theorem mem_of_exec_ldMemVx {x : Nibble} {s t : State} (hle : s.i.toNat + x.toNat ≤ 4095)
    (h : exec (.ldMemVx x) s = .next t) : t.mem = s.mem.setBytes s.i.toNat (s.regsTo x) := by
  have hf : faultOf (.ldMemVx x) s = none := if_neg (by omega)
  rw [exec_of_faultOf_none hf] at h
  cases h
  rfl

/-- Settles O49: the fetch reads the bytes of V0 and V1. -/
theorem storedWordIsFetched : Obligations.StoredWordIsFetched := by
  intro x s t hx hle h
  have h0 : t.mem.byteAt s.i.toNat = s.reg 0 := by
    rw [mem_of_exec_ldMemVx hle h]
    exact s.mem.byteAt_setBytes_regsTo s.i.toNat s (r := 0) x.toNat.zero_le
  have h1 : t.mem.byteAt (s.i.toNat + 1) = s.reg 1 := by
    rw [mem_of_exec_ldMemVx hle h]
    exact s.mem.byteAt_setBytes_regsTo s.i.toNat s (r := 1) hx
  rw [← h0, ← h1]
  exact t.mem.fetch_bigEndian (by omega)

end Sys2Proof.Machine
end

section
/-! PROOFS of the statements of 30_encoding.md: the decoder against the opcode map (R76, R77, R78), the two halves of the round
trip of encoder and decoder (R70, R71, R75), and from them that a step runs the decoded instruction (R72) and always has one to
run (R78, R190). -/

namespace Sys2Proof

/-! ## Fields under a mask -/

theorem fieldOp_and (w m : Word) : fieldOp (w &&& m) = fieldOp w &&& fieldOp m := BitVec.extractLsb'_and

theorem fieldN_and (w m : Word) : fieldN (w &&& m) = fieldN w &&& fieldN m := BitVec.extractLsb'_and

theorem fieldKk_and (w m : Word) : fieldKk (w &&& m) = fieldKk w &&& fieldKk m := BitVec.extractLsb'_and

/-- The mask of the rows that fix the last digit keeps that digit. -/
theorem fieldN_and_F00F (w : Word) : fieldN (w &&& 0xF00F) = fieldN w :=
  (fieldN_and w 0xF00F).trans (nibble_and_ones _)

/-- The mask of the rows that fix the last two digits keeps them. -/
theorem fieldKk_and_F0FF (w : Word) : fieldKk (w &&& 0xF0FF) = fieldKk w :=
  (fieldKk_and w 0xF0FF).trans (BitVec.and_allOnes (w := 8))

/-! ## The rows of the opcode map -/

/-- A row accepts a word exactly when the masked word is the match column. -/
theorem OpcodeRow.accepts_iff (r : OpcodeRow) (w : Word) : r.accepts w = true ↔ w &&& r.mask = r.pattern := beq_iff_eq

/-- A word is unmatched exactly when, masked, it differs from the match column in every row. -/
theorem unmatched_iff (w : Word) : unmatched w = true ↔ ∀ r ∈ opcodeMap, w &&& r.mask ≠ r.pattern := by
  simp only [unmatched, List.all_eq_true, Bool.not_eq_true', ← Bool.not_eq_true, OpcodeRow.accepts_iff, ne_eq]

/-- Every row fixes `op`, so it accepts only words of its own operation. -/
theorem fieldOp_pattern_of_accepts {r : OpcodeRow} {w : Word} (hr : r ∈ opcodeMap) (h : w &&& r.mask = r.pattern) :
    fieldOp r.pattern = fieldOp w := by
  have hmask : ∀ q ∈ opcodeMap, fieldOp q.mask = 0xF := by decide
  rw [← h, fieldOp_and, hmask r hr, nibble_and_ones]

/-- When the rows of an operation all fix the same part of the word, a word of that operation whose part stands in none of
them is unmatched. -/
theorem unmatched_of_part {α : Type} {part : Word → α} {mask : Word} {op : Nibble} {listed : List α} {w : Word}
    (hpart : ∀ u, part (u &&& mask) = part u)
    (hrows : ∀ r ∈ opcodeMap, fieldOp r.pattern = op → r.mask = mask ∧ part r.pattern ∈ listed)
    (hop : fieldOp w = op) (hw : part w ∉ listed) : unmatched w = true := by
  refine (unmatched_iff w).2 fun r hr hacc => hw ?_
  obtain ⟨hmask, hmem⟩ := hrows r hr ((fieldOp_pattern_of_accepts hr hacc).trans hop)
  rwa [← hacc, hmask, hpart] at hmem

/-! ## Encoding a decoded word (R76, R78) -/

/-! A word is the layout of its fields, with the values that the decoder has tested put in. -/

theorem formNnn_eq_of_op {w : Word} {op : Nibble} (hop : fieldOp w = op) : formNnn op (fieldNnn w) = w :=
  hop ▸ word_eq_formNnn w

theorem formXkk_eq_of_op {w : Word} {op : Nibble} (hop : fieldOp w = op) : formXkk op (fieldX w) (fieldKk w) = w :=
  hop ▸ word_eq_formXkk w

theorem formXkk_eq_of_op_kk {w : Word} {op : Nibble} {kk : Byte} (hop : fieldOp w = op) (hkk : fieldKk w = kk) :
    formXkk op (fieldX w) kk = w := hkk ▸ formXkk_eq_of_op hop

theorem formXyn_eq_of_op {w : Word} {op : Nibble} (hop : fieldOp w = op) :
    formXyn op (fieldX w) (fieldY w) (fieldN w) = w := hop ▸ word_eq_formXyn w

theorem formXyn_eq_of_op_n {w : Word} {op n : Nibble} (hop : fieldOp w = op) (hn : fieldN w = n) :
    formXyn op (fieldX w) (fieldY w) n = w := hn ▸ formXyn_eq_of_op hop

/-- The instruction is well-formed and its word is `w`. -/
def Encodes (i : Instr) (w : Word) : Prop := i.wellFormed = true ∧ encode i = w

/-- Both branches of a test of the decoder, each under the test's outcome. -/
theorem encodes_ite {c : Prop} [Decidable c] {i j : Instr} {w : Word} (hi : c → Encodes i w) (hj : ¬c → Encodes j w) :
    Encodes (if c then i else j) w := by
  split
  · exact hi ‹c›
  · exact hj ‹¬c›

/-- `op` = 0: the rows list the whole word. -/
theorem encodes_decodeOp0 {w : Word} (hop : fieldOp w = 0x0) : Encodes (decodeOp0 w) w := by
  unfold decodeOp0
  iterate 2 refine encodes_ite (fun h => ⟨rfl, h.symm⟩) fun _ => ?_
  exact ⟨unmatched_of_part (part := id) (listed := [0x00E0, 0x00EE]) and_FFFF (by decide) hop (by simp_all), rfl⟩

/-- `op` = 8: the rows list the minor digit. -/
theorem encodes_decodeOp8 {w : Word} (hop : fieldOp w = 0x8) : Encodes (decodeOp8 w) w := by
  unfold decodeOp8
  iterate 9 refine encodes_ite (fun hn => ⟨rfl, formXyn_eq_of_op_n hop hn⟩) fun _ => ?_
  exact ⟨unmatched_of_part (listed := [0, 1, 2, 3, 4, 5, 6, 7, 0xE]) fieldN_and_F00F (by decide) hop (by simp_all), rfl⟩

/-- `op` = E: the rows list `kk`. -/
theorem encodes_decodeOpE {w : Word} (hop : fieldOp w = 0xE) : Encodes (decodeOpE w) w := by
  unfold decodeOpE
  iterate 2 refine encodes_ite (fun hkk => ⟨rfl, formXkk_eq_of_op_kk hop hkk⟩) fun _ => ?_
  exact ⟨unmatched_of_part (listed := [0x9E, 0xA1]) fieldKk_and_F0FF (by decide) hop (by simp_all), rfl⟩

/-- `op` = F: the rows list `kk`. -/
theorem encodes_decodeOpF {w : Word} (hop : fieldOp w = 0xF) : Encodes (decodeOpF w) w := by
  unfold decodeOpF
  iterate 9 refine encodes_ite (fun hkk => ⟨rfl, formXkk_eq_of_op_kk hop hkk⟩) fun _ => ?_
  exact ⟨unmatched_of_part (listed := [0x07, 0x0A, 0x15, 0x18, 0x1E, 0x29, 0x33, 0x55, 0x65]) fieldKk_and_F0FF
    (by decide) hop (by simp_all), rfl⟩

/-- `op` = 5 or 9: the one row of the operation fixes the last digit to 0. -/
theorem encodes_unrecognized_of_n {w : Word} (hop : fieldOp w = 0x5 ∨ fieldOp w = 0x9) (hn : fieldN w ≠ 0x0) :
    Encodes (.unrecognized w) w := by
  refine ⟨?_, rfl⟩
  rcases hop with hop | hop <;>
    exact unmatched_of_part (listed := [0x0]) fieldN_and_F00F (by decide) hop (by simpa using hn)

/-- Every word decodes to a well-formed instruction whose encoding it is: operation by operation, from 0 to F. -/
theorem encodes_decodeWord (w : Word) : Encodes (decodeWord w) w := by
  unfold decodeWord
  refine encodes_ite encodes_decodeOp0 fun _ => ?_
  iterate 2 refine encodes_ite (fun hop => ⟨rfl, formNnn_eq_of_op hop⟩) fun _ => ?_
  iterate 2 refine encodes_ite (fun hop => ⟨rfl, formXkk_eq_of_op hop⟩) fun _ => ?_
  refine encodes_ite (fun hop => encodes_ite (fun hn => ⟨rfl, formXyn_eq_of_op_n hop hn⟩)
    (encodes_unrecognized_of_n (.inl hop))) fun _ => ?_
  iterate 2 refine encodes_ite (fun hop => ⟨rfl, formXkk_eq_of_op hop⟩) fun _ => ?_
  refine encodes_ite encodes_decodeOp8 fun _ => ?_
  refine encodes_ite (fun hop => encodes_ite (fun hn => ⟨rfl, formXyn_eq_of_op_n hop hn⟩)
    (encodes_unrecognized_of_n (.inr hop))) fun _ => ?_
  iterate 2 refine encodes_ite (fun hop => ⟨rfl, formNnn_eq_of_op hop⟩) fun _ => ?_
  refine encodes_ite (fun hop => ⟨rfl, formXkk_eq_of_op hop⟩) fun _ => ?_
  refine encodes_ite (fun hop => ⟨rfl, formXyn_eq_of_op hop⟩) fun _ => ?_
  refine encodes_ite encodes_decodeOpE fun _ => encodes_decodeOpF ?_
  -- what is none of 0 to E is F
  bv_omega

/-- Settles O3, from the decoder's branches. -/
theorem encodeOfDecode : Obligations.EncodeOfDecode := encodes_decodeWord

/-! ## Decoding an encoded instruction (R70, R71, R75) -/

/-- Only the unrecognized word has no pattern in the opcode map. -/
theorem eq_unrecognized_of_patternOf_none {i : Instr} (h : patternOf i = none) : ∃ w, i = .unrecognized w := by
  cases i with
  | unrecognized w => exact ⟨w, rfl⟩
  | _ => cases h

/-- The encoding of every well-formed instruction is accepted by the row of its pattern, that of the unrecognized word by
none (R76). -/
theorem matchesMap (i : Instr) : Laws.MatchesMap.Statement i := by
  cases i with
  | cls => exact Laws.MatchesMap.cls
  | ret => exact Laws.MatchesMap.ret
  | jp => exact Laws.MatchesMap.jp _
  | call => exact Laws.MatchesMap.call _
  | seImm => exact Laws.MatchesMap.seImm _ _
  | sneImm => exact Laws.MatchesMap.sneImm _ _
  | seReg => exact Laws.MatchesMap.seReg _ _
  | ldImm => exact Laws.MatchesMap.ldImm _ _
  | addImm => exact Laws.MatchesMap.addImm _ _
  | ldReg => exact Laws.MatchesMap.ldReg _ _
  | orReg => exact Laws.MatchesMap.orReg _ _
  | andReg => exact Laws.MatchesMap.andReg _ _
  | xorReg => exact Laws.MatchesMap.xorReg _ _
  | addReg => exact Laws.MatchesMap.addReg _ _
  | sub => exact Laws.MatchesMap.sub _ _
  | shr => exact Laws.MatchesMap.shr _ _
  | subn => exact Laws.MatchesMap.subn _ _
  | shl => exact Laws.MatchesMap.shl _ _
  | sneReg => exact Laws.MatchesMap.sneReg _ _
  | ldI => exact Laws.MatchesMap.ldI _
  | jpV0 => exact Laws.MatchesMap.jpV0 _
  | rnd => exact Laws.MatchesMap.rnd _ _
  | drw => exact Laws.MatchesMap.drw _ _ _
  | skp => exact Laws.MatchesMap.skp _
  | sknp => exact Laws.MatchesMap.sknp _
  | ldVxDt => exact Laws.MatchesMap.ldVxDt _
  | ldVxK => exact Laws.MatchesMap.ldVxK _
  | ldDtVx => exact Laws.MatchesMap.ldDtVx _
  | ldStVx => exact Laws.MatchesMap.ldStVx _
  | addI => exact Laws.MatchesMap.addI _
  | ldF => exact Laws.MatchesMap.ldF _
  | ldB => exact Laws.MatchesMap.ldB _
  | ldMemVx => exact Laws.MatchesMap.ldMemVx _
  | ldVxMem => exact Laws.MatchesMap.ldVxMem _
  | unrecognized => exact Laws.MatchesMap.unrecognized _

/-- A word that no row accepts decodes to the unrecognized word: were it any other instruction, the row of its pattern would
accept its encoding, which is the word. -/
theorem decodeWord_of_unmatched {w : Word} (h : unmatched w = true) : decodeWord w = .unrecognized w := by
  obtain ⟨hwf, henc⟩ := encodes_decodeWord w
  have hmap := matchesMap (decodeWord w) hwf
  cases hp : patternOf (decodeWord w) with
  | none =>
    obtain ⟨u, hu⟩ := eq_unrecognized_of_patternOf_none hp
    rw [hu] at henc ⊢
    exact congrArg _ henc
  | some name =>
    rw [hp] at hmap
    obtain ⟨r, hr, -, hacc⟩ := hmap
    rw [henc, r.accepts_iff] at hacc
    exact absurd hacc ((unmatched_iff w).1 h r hr)

/-- The decoder reads a well-formed instruction from its word: each field from the place where the format lays it. -/
theorem decodeWord_encode {i : Instr} (h : i.wellFormed = true) : decodeWord (encode i) = i := by
  cases i with
  | unrecognized w => exact decodeWord_of_unmatched h
  | cls | ret => rfl
  | _ => simp [encode, decodeWord, decodeOp8, decodeOpE, decodeOpF]

/-- The decoder reads the word of two bytes that hold it and leaves the bytes after them (R53, R70). -/
theorem decode_bytesOfWord_append (w : Word) (rest : List Byte) :
    decode (bytesOfWord w ++ rest) = .ok (decodeWord w, rest) := by
  change Except.ok (decodeWord (wordOfBytes _ _), rest) = _
  rw [wordOfBytes_bytesOfWord]

/-- Settles O2, from the round trip of the word. -/
theorem decodeOfEncode : Obligations.DecodeOfEncode := by
  intro i rest h
  rw [encodeBytes, decode_bytesOfWord_append, decodeWord_encode h]

/-! ## The decoder and the opcode map (R76, R77, R78) -/

/-- Settles O4: what decodes to the unrecognized word is well-formed, so unmatched; and the other way round. -/
theorem unrecognizedIffUnmatched : Obligations.UnrecognizedIffUnmatched := by
  refine fun w => ⟨fun h => ?_, fun h => decodeWord_of_unmatched ((unmatched_iff w).2 h)⟩
  obtain ⟨hwf, -⟩ := encodes_decodeWord w
  rw [h] at hwf
  exact (unmatched_iff w).1 hwf

/-- Two rows that accept one word agree on the bits that both of them fix. -/
theorem pattern_and_mask_comm {r q : OpcodeRow} {w : Word} (hr : r.accepts w = true) (hq : q.accepts w = true) :
    r.pattern &&& q.mask = q.pattern &&& r.mask := by
  rw [← (r.accepts_iff w).1 hr, ← (q.accepts_iff w).1 hq, BitVec.and_assoc, BitVec.and_assoc,
    BitVec.and_comm r.mask]

/-- Different rows of the map differ in some bit that both of them fix. -/
theorem eq_of_pattern_and_mask_comm :
    ∀ r ∈ opcodeMap, ∀ q ∈ opcodeMap, r.pattern &&& q.mask = q.pattern &&& r.mask → r = q := by decide

/-- Settles O5: a word that two rows accept would make them agree on the bits both fix. -/
theorem opcodeRowsDisjoint : Obligations.OpcodeRowsDisjoint :=
  fun _ r q hr hq hacc hacc' => eq_of_pattern_and_mask_comm r hr q hq (pattern_and_mask_comm hacc hacc')

/-- Settles O1: the decoder runs on each word. -/
theorem specWordsDecode : Obligations.SpecWordsDecode :=
  ⟨rfl, rfl, rfl, rfl, rfl, rfl, rfl, rfl, rfl, rfl, rfl, rfl, rfl, rfl⟩

end Sys2Proof

namespace Sys2Proof.Machine

open Sys2Proof

/-! ## The step cycle (R72) -/

/-- A Step from an unfaulted state, with PC within memory, runs the instruction that the two bytes at PC decode to. -/
theorem handle_step_of_decode {s : State} {i : Instr} (hf : s.fault = none) (hpc : s.pc.toNat + 1 ≤ 4095)
    (hd : decode [s.mem.byteAt s.pc.toNat, s.mem.byteAt (s.pc.toNat + 1)] = .ok (i, [])) (key : Option Nibble) (rnd : Byte) :
    handle (.step key rnd) s = exec i { s with key := key, rnd := rnd } := by
  cases hd
  rcases stepEvent_cases key rnd s with ⟨f, hs, -⟩ | ⟨-, hgt, -⟩ | ⟨-, -, e⟩
  · simp [hf] at hs
  · omega
  · exact e

/-- Settles O7: neither taking an event off the schedule nor the ticks before a drawn Step touch latch, PC and memory. -/
theorem stepRunsDecoded : Obligations.StepRunsDecoded := by
  refine fun s i hf hpc hd _ => ⟨fun key rnd es h => ?_, fun h => ?_⟩
  · rw [step_of_pending h]
    exact handle_step_of_decode (s := { s with pending := es }) hf hpc hd key rnd
  · rw [step_of_no_pending h]
    exact ⟨_, _, _, handle_step_of_decode
      (s := { s.afterTicks (Config.ticks s.draws) with draws := s.draws + 1 }) hf hpc hd _ _⟩

/-! ## Nothing else stops (R78, R170, R190, R201) -/

/-- Every instruction answers a next state: it completes or it takes its fault. -/
theorem exec_next (i : Instr) (s : State) : ∃ t, exec i s = .next t := by
  rw [exec_eq_finish]
  exact finish_next _ _ _

/-- Every event but a Reset with too large an image answers a next state. -/
theorem handle_next {e : Event} (h : ∀ image, e = .reset image → image.length ≤ 3584) (s : State) :
    ∃ t, handle e s = .next t := by
  cases e with
  | step key rnd =>
    change ∃ t, stepEvent key rnd s = .next t
    rcases stepEvent_cases key rnd s with ⟨f, -, e⟩ | ⟨-, -, e⟩ | ⟨-, -, e⟩ <;> rw [e]
    · exact ⟨_, raise_eq _ _⟩
    · exact ⟨_, raise_eq _ _⟩
    · exact exec_next _ _
  | tick => exact ⟨_, rfl⟩
  | reset image =>
    have hfit := h image rfl
    have hlt : ¬image.length + Config.progBase > Config.memSize := by
      rw [Config.progBase, Config.memSize]; omega
    rw [handle, resetEvent, if_neg hlt]
    exact ⟨_, rfl⟩
  | fbRead x y => exact ⟨_, rfl⟩

/-- Settles O20: the next event is one that answers a next state. -/
theorem nothingElseStops : Obligations.NothingElseStops := by
  refine ⟨exec_next, fun s h => ?_⟩
  cases hp : s.pending with
  | nil =>
    rw [step_of_no_pending hp]
    exact handle_next (fun _ he => by cases he) _
  | cons e es =>
    rw [step_of_pending hp]
    exact handle_next (fun image he => h image es (by rw [hp, he])) _

end Sys2Proof.Machine
end

section
/-! PROOFS of the statements of 40_control_flow.md: the jumps (R101, R103), the skips on registers (R104 to R107), the
unrecognized word (R109), and the call stack: one call and one return (R100, R102), and a run of them (R32). -/

namespace Sys2Proof.Machine

open Sys2Proof

/-! ## What a control transfer leaves -/

/-- The frame of an instruction that completes, whatever it answers. -/
theorem completedOf_frame (i : Instr) (s : State) (o : Output) : Frame (mayWrite i) s ((completedOf i s).answer o) :=
  (effectOf_frame i s).of_pc_answer (nextPc i s) o

/-- An instruction that cannot fault leaves its next PC and its status, and changes only what the table lists. -/
theorem completes_leaves {i : Instr} {s : State} {pc : Word} (hf : faultOf i s = none) (hpc : nextPc i s = pc) :
    Completes i s fun t => Leaves pc (statusOf i s) t ∧ Frame (mayWrite i) s t :=
  ⟨_, exec_of_faultOf_none hf, ⟨hpc, rfl⟩, completedOf_frame i s _⟩

/-! ## Jumps and the unrecognized word (R101, R103, R109) -/

/-- Settles O31: the target of Bnnn is the plain sum. -/
theorem jumpsLoadPc : Obligations.JumpsLoadPc := by
  refine fun nnn s => ⟨decodeWord_encode (i := .jp nnn) rfl, decodeWord_encode (i := .jpV0 nnn) rfl, ?_, ?_⟩
  · exact ⟨_, exec_of_faultOf_none rfl, absolute_toNat nnn, rfl, completedOf_frame (.jp nnn) s _⟩
  · exact ⟨_, exec_of_faultOf_none rfl, s.offsetTarget_toNat nnn, rfl, completedOf_frame (.jpV0 nnn) s _⟩

/-- Settles O34, from the decoder on unmatched words and the default advance. -/
theorem unrecognizedIsNoOp : Obligations.UnrecognizedIsNoOp :=
  fun w _ => ⟨decodeWord_of_unmatched, completes_leaves (i := .unrecognized w) rfl rfl⟩

/-! ## Skips on registers (R104 to R107) -/

/-- PC after an instruction that neither loads PC nor waits for a key, by any condition that says when it skips (R74). -/
theorem nextPc_eq_ite {i : Instr} {s : State} {c : Prop} [Decidable c] (hl : loadsPc i = false)
    (hk : ¬((∃ x, i = .ldVxK x) ∧ s.key = none)) (hc : skipTaken i s ↔ c) :
    nextPc i s = if c then s.pc + 4 else s.pc + 2 := by
  by_cases h : c
  · rw [if_pos h, nextPc_of_skipTaken (hc.2 h)]
  · rw [if_neg h, nextPc_of_not_loadsPc hl hk, if_neg fun e => h (hc.1 ((skips_iff i s).1 e))]

/-- Settles O32: bytes are equal exactly when their values are. -/
theorem skipsOnImmediate : Obligations.SkipsOnImmediate := by
  refine fun x kk s => ⟨decodeWord_encode (i := .seImm x kk) rfl, decodeWord_encode (i := .sneImm x kk) rfl, ?_, ?_⟩
  · exact completes_leaves (i := .seImm x kk) rfl (nextPc_eq_ite rfl nofun BitVec.toNat_inj.symm)
  · exact completes_leaves (i := .sneImm x kk) rfl (nextPc_eq_ite rfl nofun BitVec.toNat_inj.not.symm)

/-- A word of operation 5 or 9 whose last digit is not 0 is unrecognized (R77). -/
theorem decodeWord_formXyn_of_ne_zero {op n : Nibble} (x y : Nibble) (hop : op = 0x5 ∨ op = 0x9) (hn : n ≠ 0x0) :
    decodeWord (formXyn op x y n) = .unrecognized (formXyn op x y n) := by
  obtain ⟨hwf, -⟩ : Encodes (.unrecognized (formXyn op x y n)) (formXyn op x y n) :=
    encodes_unrecognized_of_n (by rwa [fieldOp_formXyn]) (by rwa [fieldN_formXyn])
  exact decodeWord_of_unmatched hwf

/-- Settles O33: as O32, and the last digit decides whether the word is a skip at all. -/
theorem skipsOnRegisters : Obligations.SkipsOnRegisters := by
  refine fun x y n s => ⟨decodeWord_encode (i := .seReg x y) rfl, decodeWord_encode (i := .sneReg x y) rfl,
    fun hn => ⟨decodeWord_formXyn_of_ne_zero x y (.inl rfl) hn, decodeWord_formXyn_of_ne_zero x y (.inr rfl) hn⟩, ?_, ?_⟩
  · exact completes_leaves (i := .seReg x y) rfl (nextPc_eq_ite rfl nofun BitVec.toNat_inj.symm)
  · exact completes_leaves (i := .sneReg x y) rfl (nextPc_eq_ite rfl nofun BitVec.toNat_inj.not.symm)

/-! ## One call, one return (R100, R102) -/

/-- Settles O27: the effect of 00EE writes the pointer and no slot. -/
theorem retPopsPc : Obligations.RetPopsPc :=
  ⟨rfl, fun s =>
    ⟨fun h => ⟨_, exec_of_faultOf_none (if_neg h.ne'), ⟨rfl, rfl⟩, rfl, rfl, completedOf_frame .ret s _⟩,
      fun h => faults_of_faultOf (if_pos h)⟩⟩

/-- With room on the stack, 2nnn completes: the return address is pushed and PC is `nnn`. -/
theorem exec_call {s : State} (h : s.sp.val < 16) (nnn : Addr) :
    exec (.call nnn) s = .next { s with
      stack := s.stack.set s.sp.val (s.pc + 2) h, sp := ⟨s.sp.val + 1, Nat.succ_lt_succ h⟩
      pc := absolute nnn, output := .status .continue } := by
  rcases push_cases (s.pc + 2) s with ⟨_, e⟩ | ⟨hfull, -⟩
  · change finish .continue s ((push (s.pc + 2) s).map _) = _
    rw [e]
    rfl
  · exact absurd hfull h.ne

/-- Settles O28: the slot written is `SP`, so a read of it gives the return address and a read of another what it held. -/
theorem callPushesNext : Obligations.CallPushesNext := by
  refine fun nnn s => ⟨decodeWord_encode (i := .call nnn) rfl, fun h => ?_, fun h => faults_of_faultOf (if_pos h)⟩
  obtain ⟨hframe, -⟩ := componentsWrittenAsListed (.call nnn) s _ (exec_call h nnn)
  exact ⟨_, exec_call h nnn, ⟨rfl, rfl⟩, rfl, Vector.getElem_set_self h,
    fun j hj => Vector.getElem_set_ne h j.isLt hj.symm, hframe (if_neg h.ne)⟩

/-! ## The stack as a list (R29, D8)

The return addresses held, the latest first. A call pushes one onto the list and a return pops it, so that a run of calls and
returns is reasoned about without slots and pointer. -/

/-- The return addresses held: the slots below `SP`, the latest first. -/
def State.entries (s : State) : List Word := (s.stack.toList.take s.sp.val).reverse

/-- SP counts the entries held. -/
@[simp] theorem State.entries_length (s : State) : s.entries.length = s.sp.val := by
  have := s.sp.isLt
  simp only [State.entries, List.length_reverse, List.length_take, Vector.length_toList]
  omega

/-- States with the same stack hold the same entries. -/
theorem State.entries_congr {s u : State} (hsp : u.sp = s.sp) (hstack : u.stack = s.stack) : u.entries = s.entries := by
  rw [State.entries, State.entries, hsp, hstack]

/-- With an entry held, the latest stands in the slot below `SP`, and the others are those of one entry fewer. -/
theorem State.entries_eq_cons {s : State} (h : 0 < s.sp.val) :
    s.entries = s.stack[s.sp.val - 1] :: { s with sp := ⟨s.sp.val - 1, by omega⟩ : State }.entries := by
  have hlt : s.sp.val - 1 < s.stack.toList.length := by rw [Vector.length_toList]; omega
  have htake := List.take_concat_get' s.stack.toList (s.sp.val - 1) hlt
  rw [Nat.sub_add_cancel h] at htake
  simp [State.entries, ← htake]

/-- A call with fewer than 16 entries held pushes the address after it and jumps. -/
theorem completes_call {s : State} (h : s.entries.length < 16) (nnn : Addr) :
    Completes (.call nnn) s fun t => t.pc = absolute nnn ∧ t.fault = s.fault ∧ t.entries = (s.pc + 2) :: s.entries := by
  rw [State.entries_length] at h
  refine ⟨_, exec_call h nnn, rfl, rfl, (State.entries_eq_cons (Nat.succ_pos _)).trans ?_⟩
  simp [State.entries, Vector.toList_set, List.take_set_of_le]

/-- A return pops the latest entry into PC. -/
theorem completes_ret {s : State} {a : Word} {rest : List Word} (h : s.entries = a :: rest) :
    Completes .ret s fun t => Leaves a .continue t ∧ t.fault = s.fault ∧ t.entries = rest := by
  have hsp : 0 < s.sp.val := by rw [← s.entries_length, h]; exact Nat.succ_pos _
  obtain ⟨rfl, rfl⟩ := List.cons.inj ((State.entries_eq_cons hsp).symm.trans h)
  exact ⟨_, exec_of_faultOf_none (if_neg hsp.ne'), ⟨rfl, rfl⟩, rfl, rfl⟩

/-- Settles O29: the call's entry is the latest, so the return pops it and leaves the entries from before the call. -/
theorem retAfterCallResumes : Obligations.RetAfterCallResumes := by
  intro nnn s t u h hfault hsp hstack
  have hroom : s.entries.length < 16 := by
    rw [State.entries_length]
    by_contra hfull
    have hover : Faults (.call nnn) s .stackOverflow := faults_of_faultOf (if_pos (by omega))
    rw [Faults, h] at hover
    cases hover
    cases hfault
  obtain ⟨t', ht', -, -, hentries⟩ := completes_call hroom nnn
  obtain rfl : t = t' := Host.Outcome.next.inj (h.symm.trans ht')
  obtain ⟨w, hw, hleaves, -, hpopped⟩ := completes_ret ((State.entries_congr hsp hstack).trans hentries)
  refine ⟨w, hw, hleaves, Fin.ext ?_⟩
  rw [← w.entries_length, hpopped, s.entries_length]

/-! ## A run of calls, a run of returns (R32) -/

/-- The addresses after each of the calls `ns` made one after another from `pc` on, the first call first. -/
def returnAddrs : Word → List Addr → List Word
  | _, [] => []
  | pc, nnn :: ns => (pc + 2) :: returnAddrs (absolute nnn) ns

@[simp] theorem returnAddrs_length (ns : List Addr) : ∀ pc, (returnAddrs pc ns).length = ns.length := by
  induction ns with
  | nil => exact fun _ => rfl
  | cons nnn ns ih => exact fun _ => congrArg Nat.succ (ih _)

/-- Call `j` is made from the target of the call before it, the first from `pc`. -/
theorem returnAddrs_getElem (ns : List Addr) : ∀ (pc : Word) (j : Nat) (h : j < (returnAddrs pc ns).length),
    (returnAddrs pc ns)[j] = (pc :: ns.map absolute).getD j 0 + 2 := by
  induction ns with
  | nil => exact fun _ _ h => absurd h (Nat.not_lt_zero _)
  | cons nnn ns ih =>
    intro pc j h
    cases j with
    | zero => rfl
    | succ j => exact ih (absolute nnn) j (Nat.lt_of_succ_lt_succ h)

/-- Calls that fit on the stack succeed and push the addresses after them. -/
theorem callAll_entries (ns : List Addr) : ∀ s : State, s.entries.length + ns.length ≤ 16 →
    ∃ t, callAll ns s = .next t ∧ t.fault = s.fault ∧ t.entries = (returnAddrs s.pc ns).reverse ++ s.entries := by
  induction ns with
  | nil => exact fun s _ => ⟨s, rfl, rfl, rfl⟩
  | cons nnn ns ih =>
    intro s hfit
    rw [List.length_cons] at hfit
    obtain ⟨s₁, hs₁, hpc, hfault, hentries⟩ := completes_call (by omega : s.entries.length < 16) nnn
    obtain ⟨t, ht, htfault, htentries⟩ := ih s₁ (by rw [hentries, List.length_cons]; omega)
    refine ⟨t, by simp only [callAll, hs₁, ht], htfault.trans hfault, ?_⟩
    rw [htentries, hpc, hentries, returnAddrs, List.reverse_cons, List.append_assoc]
    rfl

/-- Returns pop the entries one after another, so the last of them resumes at the entry below those popped before it. -/
theorem returnAll_entries (popped : List Word) : ∀ {s : State} {a : Word} {rest : List Word},
    s.entries = popped ++ a :: rest →
    ∃ u, returnAll (popped.length + 1) s = .next u ∧ u.fault = s.fault ∧ u.pc = a ∧ u.entries = rest := by
  induction popped with
  | nil =>
    intro s a rest h
    obtain ⟨u, hu, ⟨hpc, -⟩, hfault, hentries⟩ := completes_ret h
    exact ⟨u, by simp only [List.length_nil, returnAll, hu], hfault, hpc, hentries⟩
  | cons b popped ih =>
    intro s a rest h
    obtain ⟨s₁, hs₁, -, hfault, hentries⟩ := completes_ret h
    obtain ⟨u, hu, hufault, hpc, hrest⟩ := ih hentries
    exact ⟨u, by rw [List.length_cons, returnAll, hs₁]; exact hu, hufault.trans hfault, hpc, hrest⟩

/-- Return `j + 1` resumes at entry `j` and leaves the entries below it. -/
theorem returnAll_getElem {s : State} {j : Nat} (h : j < s.entries.length) :
    ∃ u, returnAll (j + 1) s = .next u ∧ u.fault = s.fault ∧ u.pc = s.entries[j] ∧ u.entries = s.entries.drop (j + 1) := by
  have hsplit : s.entries = s.entries.take j ++ s.entries[j] :: s.entries.drop (j + 1) := by
    rw [← List.drop_eq_getElem_cons h, List.take_append_drop]
  have hlen : (s.entries.take j).length = j := List.length_take_of_le h.le
  simpa only [hlen] using returnAll_entries _ hsplit

/-- Settles O30: after the calls the entries are the addresses after them in reverse order, 16 of them; the returns pop them
from the front and leave none. -/
theorem sixteenCallsAndReturns : Obligations.SixteenCallsAndReturns := by
  intro ns s hsp hfault hlen
  have hempty : s.entries = [] := List.length_eq_zero_iff.1 (s.entries_length.trans hsp)
  obtain ⟨t, ht, htfault, hentries⟩ := callAll_entries ns s (by rw [hempty, hlen]; decide)
  rw [hempty, List.append_nil] at hentries
  have htlen : t.entries.length = 16 := by rw [hentries, List.length_reverse, returnAddrs_length, hlen]
  have htsp : t.sp.val = 16 := t.entries_length.symm.trans htlen
  refine ⟨t, ht, htfault.trans hfault, htsp, fun _ => faults_of_faultOf (if_pos htsp), fun j hj => ?_, ?_⟩
  · obtain ⟨u, hu, hufault, hpc, -⟩ := returnAll_getElem (htlen ▸ hj : j < t.entries.length)
    refine ⟨u, hu, hufault.trans (htfault.trans hfault), hpc.trans ?_⟩
    simp only [hentries, List.getElem_reverse, returnAddrs_getElem, returnAddrs_length, hlen]
    rfl
  · obtain ⟨u, hu, -, -, hrest⟩ := returnAll_getElem (by omega : 15 < t.entries.length)
    refine ⟨u, hu, faults_of_faultOf (if_pos ?_)⟩
    rw [← u.entries_length, hrest, List.length_drop, htlen]

end Sys2Proof.Machine
end

section
/-! PROOFS of the statements of 41_alu.md: what an instruction that writes one register, or one register and the flag, leaves
(R120), said once for each of the two, and from them the loads, arithmetic, logic, shifts and random (R121 to R132). -/

namespace Sys2Proof.Machine

open Sys2Proof

/-! ## What a register write leaves (R120) -/

/-- Writing the register file leaves every other part. -/
theorem frame_regs (s : State) (v : Vector Byte 16) : Frame [.regs] s { s with v := v } := by
  intro p hp
  cases p with
  | regs => exact absurd (.head _) hp
  | screen | memory => exact fun _ => rfl
  | stack => exact ⟨rfl, rfl⟩
  | inputs => exact ⟨rfl, rfl, rfl, rfl, rfl⟩
  | index | delay | sound | latch => rfl

/-- The byte stands at the register written, and every other register reads as before. -/
theorem writesReg_setReg (s : State) (x : Nibble) (b : Byte) : WritesReg x b s (s.setReg x b) :=
  ⟨(s.setReg_reg x b x).trans (if_pos rfl), fun r hr => (s.setReg_reg x b r).trans (if_neg hr)⟩

/-- The flag is written last, so VF holds it; the byte stands at any other register written. -/
theorem writesRegFlag_setRegFlag (s : State) (x : Nibble) (b f : Byte) : WritesRegFlag x b f s (s.setRegFlag x b f) := by
  have hreg := s.setRegFlag_reg x b f
  exact ⟨(hreg vf).trans (if_pos rfl), fun hx => (hreg x).trans ((if_neg hx).trans (if_pos rfl)),
    fun r hr hvf => (hreg r).trans ((if_neg hvf).trans (if_neg hr))⟩

/-- What an instruction that writes one register leaves. -/
theorem completes_of_writeReg {i : Instr} {s : State} {x : Nibble} {b : Byte} (h : exec i s = writeReg x b s) :
    Completes i s fun t => WritesReg x b s t ∧ Leaves (s.pc + 2) .continue t ∧ Frame [.regs] s t :=
  ⟨_, h, writesReg_setReg s x b, ⟨rfl, rfl⟩, (frame_regs s _).of_pc_answer _ _⟩

/-- The same, with a property of the byte written in place of the byte. -/
theorem completes_of_writeReg_of {i : Instr} {s : State} {x : Nibble} {b : Byte} {P : State → Prop}
    (h : exec i s = writeReg x b s) (hP : ∀ t, t.reg x = b → P t) :
    Completes i s fun t => P t ∧ WritesReg x (t.reg x) s t ∧ Leaves (s.pc + 2) .continue t ∧ Frame [.regs] s t := by
  obtain ⟨t, ht, ⟨hx, hothers⟩, hrest⟩ := completes_of_writeReg h
  exact ⟨t, ht, hP t hx, ⟨rfl, hothers⟩, hrest⟩

/-- What an instruction that writes one register and the flag leaves, by any expressions that say what the two are. -/
theorem completes_of_writeRegFlag {i : Instr} {s : State} {x : Nibble} {b b' f f' : Byte}
    (h : exec i s = writeRegFlag x b f s) (hb : b = b') (hf : f = f') :
    Completes i s fun t => WritesRegFlag x b' f' s t ∧ Leaves (s.pc + 2) .continue t ∧ Frame [.regs] s t := by
  subst hb hf
  exact ⟨_, h, writesRegFlag_setRegFlag s x b f, ⟨rfl, rfl⟩, (frame_regs s _).of_pc_answer _ _⟩

/-! ## The flags and results in natural numbers (R127 to R131) -/

/-- A flag that says whether a condition holds. -/
theorem flagByte_decide (c : Prop) [Decidable c] : flagByte (decide c) = if c then 1 else 0 :=
  if_congr decide_eq_true_iff rfl rfl

/-- A flag that is a bit of a byte: the byte's quotient by the bit's weight, modulo 2. -/
theorem flagByte_getLsbD (a : Byte) (k : Nat) : flagByte (a.getLsbD k) = BitVec.ofNat 8 (a.toNat / 2 ^ k % 2) := by
  rw [← Nat.toNat_testBit, BitVec.testBit_toNat]
  cases a.getLsbD k <;> rfl

/-- The bit that a right shift moves out is the remainder by 2. -/
theorem lowBitFlag_eq (a : Byte) : lowBitFlag a = BitVec.ofNat 8 (a.toNat % 2) := by
  rw [lowBitFlag, flagByte_getLsbD, Nat.pow_zero, Nat.div_one]

/-- The bit that a left shift moves out is the quotient by 128, which a byte keeps below 2. -/
theorem highBitFlag_eq (a : Byte) : highBitFlag a = BitVec.ofNat 8 (a.toNat / 128) := by
  have hlt := a.isLt
  rw [highBitFlag, flagByte_getLsbD, Nat.mod_eq_of_lt (by omega)]
  rfl

/-- The sum of two bytes is the sum of their values modulo 256. -/
theorem byte_add_eq (a b : Byte) : a + b = BitVec.ofNat 8 ((a.toNat + b.toNat) % 256) :=
  BitVec.eq_of_toNat_eq (by simp)

/-- The difference of two bytes is the difference of their values, a negative one too, modulo 256. -/
theorem byte_sub_eq (a b : Byte) : a - b = BitVec.ofInt 8 (a.toNat - b.toNat : Int) := by
  simp only [BitVec.sub_eq_add_neg, Int.sub_eq_add_neg, BitVec.ofInt_add, BitVec.ofInt_neg, BitVec.ofInt_natCast,
    BitVec.ofNat_toNat, BitVec.setWidth_eq]

/-- A right shift by one halves a byte's value. -/
theorem byte_shiftRight_one_eq (a : Byte) : a >>> 1 = BitVec.ofNat 8 (a.toNat / 2) := by
  have hlt := a.isLt
  apply BitVec.eq_of_toNat_eq
  rw [BitVec.toNat_ushiftRight, Nat.shiftRight_eq_div_pow, Nat.pow_one, BitVec.toNat_ofNat, Nat.mod_eq_of_lt (by omega)]

/-- A left shift by one doubles a byte's value modulo 256. -/
theorem byte_shiftLeft_one_eq (a : Byte) : a <<< 1 = BitVec.ofNat 8 (a.toNat * 2 % 256) :=
  BitVec.eq_of_toNat_eq (by simp [Nat.shiftLeft_eq])

/-! ## Loads, 7xkk, logic and random (R121 to R126, R132) -/

/-- Settles O35: both write one register. -/
theorem registerLoads : Obligations.RegisterLoads :=
  fun x y kk _ => ⟨decodeWord_encode (i := .ldImm x kk) rfl, decodeWord_encode (i := .ldReg x y) rfl,
    completes_of_writeReg rfl, completes_of_writeReg rfl⟩

/-- Settles O36: the register written is the only one, so VF is left. -/
theorem addImmediateWrapsWithoutFlag : Obligations.AddImmediateWrapsWithoutFlag :=
  fun x kk s => ⟨decodeWord_encode (i := .addImm x kk) rfl,
    completes_of_writeReg_of rfl fun t (ht : t.reg x = s.reg x + kk) => ht ▸ BitVec.toNat_add _ _⟩

/-- Settles O37, from the bits of each logic operation. -/
theorem logicBitByBit : Obligations.LogicBitByBit := by
  refine fun x y s => ⟨decodeWord_encode (i := .orReg x y) rfl, decodeWord_encode (i := .andReg x y) rfl,
    decodeWord_encode (i := .xorReg x y) rfl, ?_, ?_, ?_⟩
  · refine completes_of_writeReg_of rfl fun t (ht : t.reg x = s.reg x ||| s.reg y) k => ?_
    rw [ht, BitVec.getLsbD_or, Bool.or_eq_true]
  · refine completes_of_writeReg_of rfl fun t (ht : t.reg x = s.reg x &&& s.reg y) k => ?_
    rw [ht, BitVec.getLsbD_and, Bool.and_eq_true]
  · refine completes_of_writeReg_of rfl fun t (ht : t.reg x = s.reg x ^^^ s.reg y) k => ?_
    rw [ht, BitVec.getLsbD_xor, Bool.xor_iff_ne]

/-- Settles O41, from the bits of the conjunction. -/
theorem randomIsMasked : Obligations.RandomIsMasked := by
  refine fun x kk s => ⟨decodeWord_encode (i := .rnd x kk) rfl,
    completes_of_writeReg_of rfl fun t (ht : t.reg x = s.rnd &&& kk) k => ?_⟩
  rw [ht, BitVec.getLsbD_and, Bool.and_eq_true]

/-! ## Arithmetic with a flag (R127 to R131) -/

/-- Settles O38: the carry is a sum above 255. -/
theorem addRegistersCarry : Obligations.AddRegistersCarry :=
  fun x y _ => ⟨decodeWord_encode (i := .addReg x y) rfl,
    completes_of_writeRegFlag rfl (byte_add_eq _ _) (flagByte_decide _)⟩

/-- Settles O39: there is no borrow when the minuend is at least the subtrahend. -/
theorem subtractNoBorrow : Obligations.SubtractNoBorrow :=
  fun x y _ => ⟨decodeWord_encode (i := .sub x y) rfl, decodeWord_encode (i := .subn x y) rfl,
    completes_of_writeRegFlag rfl (byte_sub_eq _ _) (flagByte_decide _),
    completes_of_writeRegFlag rfl (byte_sub_eq _ _) (flagByte_decide _)⟩

/-- Settles O40: neither meaning names `V[y]`. -/
theorem shiftsInPlace : Obligations.ShiftsInPlace :=
  fun x y _ => ⟨decodeWord_encode (i := .shr x y) rfl, decodeWord_encode (i := .shl x y) rfl,
    completes_of_writeRegFlag rfl (byte_shiftRight_one_eq _) (lowBitFlag_eq _),
    completes_of_writeRegFlag rfl (byte_shiftLeft_one_eq _) (highBitFlag_eq _)⟩

end Sys2Proof.Machine
end

section
/-! PROOFS of the statements of 42_index_memory.md: the address register (R140, R141, R142), the stores (R143, R144), the load
(R145), and what a store and a load with the same `I` give back (R146). -/

namespace Sys2Proof.Machine

open Sys2Proof

/-! ## The address register (R140, R141, R142) -/

/-- Settles O42: the immediate is zero-extended. -/
theorem loadIndex : Obligations.LoadIndex :=
  fun nnn s => ⟨decodeWord_encode (i := .ldI nnn) rfl,
    _, exec_of_faultOf_none rfl, absolute_toNat nnn, ⟨rfl, rfl⟩, completedOf_frame (.ldI nnn) s _⟩

/-- Settles O44: a product below 1280 fits in 16 bits. -/
theorem glyphAddress : Obligations.GlyphAddress :=
  fun x s => ⟨decodeWord_encode (i := .ldF x) rfl,
    _, exec_of_faultOf_none rfl, (glyphAddr_toNat _).trans (Nat.mul_comm _ _), ⟨rfl, rfl⟩, completedOf_frame (.ldF x) s _⟩

/-- Settles O43: the flag is of the sum before its reduction, and VF is the one register written. -/
theorem addIndexRangeFlag : Obligations.AddIndexRangeFlag := by
  refine fun x s => ⟨decodeWord_encode (i := .addI x) rfl,
    _, exec_of_faultOf_none rfl, s.indexSum_toNat x, ?_, ⟨rfl, rfl⟩, completedOf_frame (.addI x) s _⟩
  have hflag : rangeFlag s.i (s.reg x) = if s.i.toNat + (s.reg x).toNat > 0xFFF then 1 else 0 := flagByte_decide _
  exact hflag ▸ writesReg_setReg { s with i := s.indexSum x } vf _

/-! ## Reads after a run of writes (R143, R144) -/

/-- Byte `k` of a run stands at offset `k` from the run's address. -/
theorem Memory.byteAt_setBytes_add (m : Memory) (a : Nat) {bs : List Byte} {k : Nat} (hk : k < bs.length) :
    (m.setBytes a bs).byteAt (a + k) = bs.getD k 0 := by
  rw [Memory.byteAt_setBytes, if_pos ⟨Nat.le_add_right a k, Nat.add_lt_add_left hk a⟩, Nat.add_sub_cancel_left]

/-- Outside the addresses of the run, from its first to its last, every byte reads as before. -/
theorem Memory.byteAt_setBytes_outside (m : Memory) {a n b : Nat} {bs : List Byte} (hn : bs.length = n + 1)
    (hb : b < a ∨ a + n < b) : (m.setBytes a bs).byteAt b = m.byteAt b := by
  rw [Memory.byteAt_setBytes, if_neg (by omega)]

/-- The digits of a byte stored from address `a` on read back as its hundreds, tens and units (R143). -/
theorem Memory.byteAt_setBytes_decimalDigits (m : Memory) (a : Nat) (b : Byte) :
    ((m.setBytes a (decimalDigits b)).byteAt a).toNat = b.toNat / 100 ∧
    ((m.setBytes a (decimalDigits b)).byteAt (a + 1)).toNat = b.toNat / 10 % 10 ∧
    ((m.setBytes a (decimalDigits b)).byteAt (a + 2)).toNat = b.toNat % 10 := by
  have hb := b.isLt
  have hread {k d : Nat} (hk : k < 3) (hd : d < 256) (he : (decimalDigits b).getD k 0 = BitVec.ofNat 8 d) :
      ((m.setBytes a (decimalDigits b)).byteAt (a + k)).toNat = d := by
    rw [m.byteAt_setBytes_add a hk, he, BitVec.toNat_ofNat, Nat.mod_eq_of_lt hd]
  exact ⟨hread (k := 0) (by omega) (by omega) rfl, hread (by omega) (by omega) rfl, hread (by omega) (by omega) rfl⟩

/-! ## Stores and loads at `I` (R143 to R146) -/

/-- An instruction whose last address is `I + n` completes when that address lies in memory and else faults; what it leaves is
`completedOf` in the first case. -/
theorem completes_or_faults_of_lastAddr {i : Instr} {s : State} {n : Nat} {P : State → Prop}
    (hf : faultOf i s = if s.i.toNat + n > 4095 then some .addressOutOfRange else none)
    (hP : P ((completedOf i s).answer (.status (statusOf i s)))) :
    (s.i.toNat + n ≤ 4095 → Completes i s P) ∧ (s.i.toNat + n > 4095 → Faults i s .addressOutOfRange) :=
  ⟨fun hle => ⟨_, exec_of_faultOf_none (hf.trans (if_neg hle.not_gt)), hP⟩,
    fun hgt => faults_of_faultOf (hf.trans (if_pos hgt))⟩

/-- Settles O45, from the reads inside and outside the run of three digits. -/
theorem storeDecimalDigits : Obligations.StoreDecimalDigits := by
  refine fun x s => ⟨decodeWord_encode (i := .ldB x) rfl, completes_or_faults_of_lastAddr rfl ?_⟩
  obtain ⟨hhundreds, htens, hunits⟩ := s.mem.byteAt_setBytes_decimalDigits s.i.toNat (s.reg x)
  exact ⟨hhundreds, htens, hunits, fun a ha => s.mem.byteAt_setBytes_outside (decimalDigits_length _) ha,
    ⟨rfl, rfl⟩, completedOf_frame (.ldB x) s _⟩

/-- Settles O46, from the reads inside and outside the run of registers. -/
theorem storeRegisters : Obligations.StoreRegisters :=
  fun x s => ⟨decodeWord_encode (i := .ldMemVx x) rfl, completes_or_faults_of_lastAddr rfl
    ⟨fun _ hr => s.mem.byteAt_setBytes_regsTo s.i.toNat s hr,
      fun _ ha => s.mem.byteAt_setBytes_outside (s.regsTo_length x) ha,
      ⟨rfl, rfl⟩, completedOf_frame (.ldMemVx x) s _⟩⟩

/-- A register that Fx65 loads holds the byte at its own offset from `I` (R145). -/
theorem effectOf_ldVxMem_reg (s : State) {x r : Nibble} (hr : r.toNat ≤ x.toNat) :
    (effectOf (.ldVxMem x) s).reg r = s.mem.byteAt (s.i.toNat + r.toNat) := by
  have hx := x.isLt
  refine (s.setRegs_reg _ 0 r ?_).trans ?_
  · rw [List.length_map, List.length_range]; omega
  · have hlt : r.toNat < x.toNat + 1 := by omega
    simp [hlt]

/-- Settles O47: the registers above x are those Fx65 may not write. -/
theorem loadRegisters : Obligations.LoadRegisters :=
  fun x s => ⟨decodeWord_encode (i := .ldVxMem x) rfl, completes_or_faults_of_lastAddr rfl
    ⟨fun _ hr => effectOf_ldVxMem_reg s hr, fun _ hr => effectOf_reg (i := .ldVxMem x) hr.not_ge,
      ⟨rfl, rfl⟩, completedOf_frame (.ldVxMem x) s _⟩⟩

/-- Settles O48: the store leaves `I`, so the load reads each byte where the store put it. -/
theorem storeLoadRoundTrip : Obligations.StoreLoadRoundTrip := by
  intro x s t u hle h humem hui
  have hmem : u.mem = s.mem.setBytes s.i.toNat (s.regsTo x) := humem.trans (mem_of_exec_ldMemVx hle h)
  obtain ⟨hframe, -⟩ := componentsWrittenAsListed (.ldMemVx x) s t h
  have hi : u.i = s.i := hui.trans (hframe (if_neg hle.not_gt) .index (by decide : Piece.index ∉ [Piece.memory]))
  obtain ⟨-, hload, -⟩ := loadRegisters x u
  obtain ⟨w, hw, hregs, -⟩ := hload (hi ▸ hle)
  refine ⟨w, hw, fun r hr => ?_⟩
  rw [hregs r hr, hmem, hi, s.mem.byteAt_setBytes_regsTo s.i.toNat s hr]

end Sys2Proof.Machine
end

section
/-! PROOFS of the statements of 43_display.md: the clear (R150), the draw (R151 to R155), and a draw over a draw (R157). -/

namespace Sys2Proof.Machine

open Sys2Proof

/-! ## The clear (R150) -/

/-- Settles O50: the framebuffer is replaced whatever it held. -/
theorem clearScreen : Obligations.ClearScreen :=
  ⟨rfl, fun s => ⟨_, exec_of_faultOf_none rfl, Framebuffer.lit_clear, ⟨rfl, rfl⟩, completedOf_frame .cls s _⟩⟩

/-! ## What a draw changes (R151, R152, R154, R155) -/

/-- The rows of the `n`-row sprite at `I`, in order. -/
def State.spriteRows (s : State) (n : Nibble) : List Byte := (List.range n.toNat).map fun k => s.mem.byteAt (s.i.toNat + k)

@[simp] theorem State.spriteRows_length (s : State) (n : Nibble) : (s.spriteRows n).length = n.toNat := by
  rw [State.spriteRows, List.length_map, List.length_range]

/-- Row `r` is the byte at offset `r` from `I`. -/
theorem State.spriteRows_getD (s : State) {n : Nibble} {r : Nat} (hr : r < n.toNat) :
    (s.spriteRows n).getD r 0 = s.mem.byteAt (s.i.toNat + r) := by
  simp [State.spriteRows, hr]

/-- A draw that does not fault draws the sprite's rows at the coordinates. -/
theorem effectOf_drw (s : State) (x y n : Nibble) :
    effectOf (.drw x y n) s = s.drawRows (s.reg x) (s.reg y) (s.spriteRows n) := rfl

/-- The places of the sprite's rows are the pixels that it covers. -/
theorem mem_spritePlaces_spriteRows {s : State} {x y n : Nibble} {p : Place} :
    p ∈ spritePlaces (s.reg x) (s.reg y) 0 (s.spriteRows n) ↔ SpriteCovers s x y n p := by
  rw [mem_spritePlaces, State.spriteRows_length]
  refine exists_congr fun r => and_congr_right fun hr => exists_congr fun c => and_congr_right fun _ => ?_
  rw [State.spriteRows_getD s hr, Nat.zero_add, spritePlace, Prod.ext_iff, Fin.ext_iff, Fin.ext_iff]
  exact and_congr_right fun _ => and_congr eq_comm eq_comm

/-- A sprite has at most 15 rows, so no two of its 1 bits land on one pixel (R154). -/
theorem State.spriteRows_length_le (s : State) (n : Nibble) : (s.spriteRows n).length ≤ 32 := by
  rw [State.spriteRows_length]; omega

/-- The pixels after a draw that does not fault. -/
theorem effectOf_drw_lit (s : State) (x y n : Nibble) (p : Place) [Decidable (SpriteCovers s x y n p)] :
    (effectOf (.drw x y n) s).fb.lit p = if SpriteCovers s x y n p then !s.fb.lit p else s.fb.lit p := by
  obtain ⟨hlit, -⟩ := s.fb.draw_sprite (s.reg x) (s.reg y) _ (s.spriteRows_length_le n)
  exact (hlit p).trans (if_congr mem_spritePlaces_spriteRows rfl rfl)

/-- VF after a draw that does not fault. -/
theorem effectOf_drw_vf (s : State) (x y n : Nibble) [Decidable (∃ p, SpriteCovers s x y n p ∧ s.fb.lit p = true)] :
    (effectOf (.drw x y n) s).reg vf = if ∃ p, SpriteCovers s x y n p ∧ s.fb.lit p = true then 1 else 0 := by
  obtain ⟨-, hhit⟩ := s.fb.draw_sprite (s.reg x) (s.reg y) _ (s.spriteRows_length_le n)
  simp only [mem_spritePlaces_spriteRows] at hhit
  rw [effectOf_drw, State.drawRows_reg, if_pos rfl, collisionFlag]
  exact if_congr hhit rfl rfl

/-! ## When a draw faults (R153, R156) -/

/-- A draw faults exactly when its sprite does not fit in memory. -/
theorem faultOf_drw (s : State) (x y n : Nibble) [Decidable (SpriteFits s n)] :
    faultOf (.drw x y n) s = if SpriteFits s n then none else some .addressOutOfRange := by
  rw [← ite_not]
  refine if_congr ?_ rfl rfl
  rw [SpriteFits]
  omega

/-! ## The draw (R151 to R155) -/

/-- Settles O51: the pixels and VF are those of the draw of the sprite's rows. -/
theorem drawXorsAndDetectsCollision : Obligations.DrawXorsAndDetectsCollision := by
  classical
  refine fun x y n s => ⟨decodeWord_encode (i := .drw x y n) rfl, fun hfits => ?_, fun hfits => ?_⟩
  · refine ⟨_, exec_of_faultOf_none ((faultOf_drw s x y n).trans (if_pos hfits)),
      fun p hp => (effectOf_drw_lit s x y n p).trans (if_pos hp), fun p hp => (effectOf_drw_lit s x y n p).trans (if_neg hp),
      fun hhit => (effectOf_drw_vf s x y n).trans (if_pos hhit), fun hmiss => (effectOf_drw_vf s x y n).trans (if_neg hmiss),
      fun r hr => effectOf_reg (i := .drw x y n) hr, ⟨rfl, rfl⟩, completedOf_frame (.drw x y n) s _⟩
  · exact faults_of_faultOf ((faultOf_drw s x y n).trans (if_neg hfits))

/-! ## A draw over a draw (R157, C14) -/

/-- What a sprite covers depends on memory, `I` and the coordinates alone. -/
theorem spriteCovers_congr {s u : State} {x y x' y' n : Nibble} (hmem : u.mem = s.mem) (hi : u.i = s.i)
    (hx : u.reg x' = s.reg x) (hy : u.reg y' = s.reg y) (p : Place) :
    SpriteCovers u x' y' n p ↔ SpriteCovers s x y n p := by
  rw [SpriteCovers, SpriteCovers, hmem, hi, hx, hy]

/-- A byte that is 1 under a condition and else 0 is 1 exactly under the condition. -/
theorem byte_eq_one_iff {b : Byte} {hit : Prop} (h1 : hit → b = 1) (h0 : ¬hit → b = 0) : b = 1 ↔ hit :=
  ⟨fun hb => by_contra fun hn => absurd ((h0 hn).symm.trans hb) (by decide), h1⟩

/-- Settles O52: the second draw covers the pixels that the first flipped, so it flips them back, and one of them is lit for
it exactly when it was not for the first. -/
theorem drawTwiceRestores : Obligations.DrawTwiceRestores := by
  intro x y x' y' n s t u hfits ht hfb hmem hi hx hy
  have hcovers := spriteCovers_congr (n := n) hmem hi hx hy
  obtain ⟨-, hfirst, -⟩ := drawXorsAndDetectsCollision x y n s
  obtain ⟨t', ht', hflip, hkeep, -⟩ := hfirst hfits
  obtain rfl : t = t' := Host.Outcome.next.inj (ht.symm.trans ht')
  obtain ⟨-, hsecond, -⟩ := drawXorsAndDetectsCollision x' y' n u
  obtain ⟨w, hw, hflip', hkeep', hhit, hmiss, -⟩ := hsecond (by rwa [SpriteFits, hi])
  simp only [hcovers, hfb] at hflip' hkeep' hhit hmiss
  refine ⟨w, hw, fun p => ?_, (byte_eq_one_iff hhit hmiss).trans ?_⟩
  · by_cases hp : SpriteCovers s x y n p
    · rw [hflip' p hp, hflip p hp, Bool.not_not]
    · rw [hkeep' p hp, hkeep p hp]
  · refine exists_congr fun p => and_congr_right fun hp => ?_
    rw [hflip p hp, Bool.not_eq_true']

end Sys2Proof.Machine
end

section
/-! PROOFS of the statements of 44_keypad_timers.md: the skips on the pressed key (R160, R161, R166), the wait for a key (R162)
and the accesses to the timers (R163 to R165). -/

namespace Sys2Proof.Machine

open Sys2Proof

/-! ## The skips on the pressed key (R160, R161, R166) -/

/-- PC after an instruction that neither loads PC nor waits for a key when it does not skip (R74). -/
theorem nextPc_of_not_skipTaken {i : Instr} {s : State} (hl : loadsPc i = false)
    (hk : ¬((∃ x, i = .ldVxK x) ∧ s.key = none)) (h : ¬skipTaken i s) : nextPc i s = s.pc + 2 := by
  classical exact (nextPc_eq_ite hl hk Iff.rfl).trans (if_neg h)

/-- Settles O53: both cases turn on whether some supplied key has the value of all of Vx, and no key has none (D11, D12). -/
theorem skipsOnKey : Obligations.SkipsOnKey := by
  refine fun x s => ⟨decodeWord_encode (i := .skp x) rfl, decodeWord_encode (i := .sknp x) rfl,
    fun k hkey hk => ?_, fun hother => ?_⟩
  · have hpressed : skipTaken (.skp x) s := ⟨k, hkey, hk⟩
    exact ⟨completes_leaves (i := .skp x) rfl (nextPc_of_skipTaken hpressed),
      completes_leaves (i := .sknp x) rfl (nextPc_of_not_skipTaken rfl nofun (not_not_intro hpressed))⟩
  · have hpressed : ¬skipTaken (.skp x) s := fun ⟨k, hkey, hk⟩ => hother k hkey hk
    exact ⟨completes_leaves (i := .skp x) rfl (nextPc_of_not_skipTaken rfl nofun hpressed),
      completes_leaves (i := .sknp x) rfl (nextPc_of_skipTaken hpressed)⟩

/-! ## The wait for a key (R162) -/

/-- Without a key Fx0A changes the answer alone. -/
theorem exec_ldVxK_of_none {s : State} (h : s.key = none) (x : Nibble) :
    exec (.ldVxK x) s = .next { s with output := .status .awaitingKey } := by
  change complete (if s.key.isSome then .continue else .awaitingKey) (s.takeKey x) = complete .awaitingKey s
  rw [State.takeKey_of_none h, h]
  rfl

/-- With a key Fx0A is the write of the key's value to Vx. -/
theorem exec_ldVxK_of_some {s : State} {k : Nibble} (h : s.key = some k) (x : Nibble) :
    exec (.ldVxK x) s = writeReg x (keyByte k) s := by
  change complete (if s.key.isSome then .continue else .awaitingKey) (s.takeKey x) = _
  rw [State.takeKey_of_some h, h]
  rfl

/-- Settles O54, from the two meanings of Fx0A; a key's byte has the key's value. -/
theorem keyWait : Obligations.KeyWait :=
  fun x _ => ⟨decodeWord_encode (i := .ldVxK x) rfl, fun h => exec_ldVxK_of_none h x,
    fun k h => completes_of_writeReg_of (exec_ldVxK_of_some h x) fun t (ht : t.reg x = keyByte k) => ht ▸ keyByte_toNat k⟩

/-! ## The accesses to the timers (R163 to R165) -/

/-- Settles O55: the read writes one register; each write has its timer as the one part it may change. -/
theorem timerAccess : Obligations.TimerAccess := by
  refine fun x s => ⟨decodeWord_encode (i := .ldVxDt x) rfl, decodeWord_encode (i := .ldDtVx x) rfl,
    decodeWord_encode (i := .ldStVx x) rfl, completes_of_writeReg rfl, ?_, ?_⟩
  · exact ⟨_, exec_of_faultOf_none rfl, rfl, ⟨rfl, rfl⟩, completedOf_frame (.ldDtVx x) s _⟩
  · exact ⟨_, exec_of_faultOf_none rfl, rfl, ⟨rfl, rfl⟩, completedOf_frame (.ldStVx x) s _⟩

end Sys2Proof.Machine
end

section
/-! PROOFS of the statements of 60_exceptions.md: the causes and the effect of a fault and its latch (R170, R174, R175), the
status of a step (R178), the ticks of the timers (R183 to R185), the end of a run (R190), and the schedule the model draws. -/

namespace Sys2Proof.Machine

open Sys2Proof

/-! ## Faults (R170, R174) -/

/-- An instruction that does not fault leaves the latch. -/
theorem effectOf_fault (i : Instr) (s : State) : (effectOf i s).fault = s.fault := by
  cases i <;> rfl

/-- From an unfaulted state an instruction leaves in the latch what the table of faults names (R170). -/
theorem fault_of_exec {i : Instr} {s t : State} (hs : s.fault = none) (h : exec i s = .next t) : t.fault = faultOf i s := by
  rcases exec_cases h with ⟨f, hf, rfl⟩ | ⟨hf, rfl⟩
  · exact hf.symm
  · exact (effectOf_fault i s).trans (hs.trans hf.symm)

/-- A Step whose fetch reads above memory takes that fault and changes nothing else (R56, R174). -/
theorem handle_step_of_pc_gt {s : State} (hf : s.fault = none) (hpc : s.pc.toNat + 1 > 4095) (key : Option Nibble)
    (rnd : Byte) :
    handle (.step key rnd) s = .next { s with
      key := key, rnd := rnd, fault := some .addressOutOfRange, output := .fault .addressOutOfRange } := by
  rcases stepEvent_cases key rnd s with ⟨f, hs, -⟩ | ⟨-, -, e⟩ | ⟨-, hle, -⟩
  · simp [hf] at hs
  · exact e
  · omega

/-- Settles O9: the fetch faults, or the instruction fetched leaves its table entry in the latch. -/
theorem faultCausesComplete : Obligations.FaultCausesComplete := by
  intro s key rnd hf
  by_cases hpc : s.pc.toNat + 1 > 4095
  · exact ⟨_, handle_step_of_pc_gt hf hpc key rnd, fun _ => rfl, fun hle => absurd hpc hle.not_gt⟩
  · have hrun := handle_step_of_decode hf (not_lt.1 hpc) rfl key rnd
    obtain ⟨t, ht⟩ := exec_next _ _
    exact ⟨t, hrun.trans ht, fun hgt => absurd hgt hpc,
      fun _ => fault_of_exec (s := { s with key := key, rnd := rnd }) hf ht⟩

/-- Settles O10, from the fault of an instruction and that of a fetch. -/
theorem faultChangesNothingElse : Obligations.FaultChangesNothingElse := by
  refine ⟨fun _ _ _ h => faults_of_faultOf h, fun s key rnd es h hf hpc => ?_⟩
  rw [step_of_pending h]
  exact handle_step_of_pc_gt (s := { s with pending := es }) hf hpc key rnd

/-! ## The latch (R175) -/

/-- With a fault latched, a Step changes its inputs and the answer alone. -/
theorem handle_step_of_fault {s : State} {f : Fault} (hf : s.fault = some f) (key : Option Nibble) (rnd : Byte) :
    handle (.step key rnd) s = .next { s with key := key, rnd := rnd, output := .fault f } := by
  rcases stepEvent_cases key rnd s with ⟨g, hg, e⟩ | ⟨hn, -, -⟩ | ⟨hn, -, -⟩
  · obtain rfl : f = g := Option.some.inj (hf.symm.trans hg)
    exact e.trans (by rw [raise_eq, ← hf])
  · simp [hf] at hn
  · simp [hf] at hn

/-- Every event but a Reset leaves a set latch as it is. -/
theorem handle_keeps_fault {e : Event} {s t : State} {f : Fault} (h : handle e s = .next t)
    (he : ∀ image, e ≠ .reset image) (hf : s.fault = some f) : t.fault = some f := by
  cases e with
  | step key rnd =>
    rw [handle_step_of_fault hf] at h
    cases h
    exact hf
  | tick =>
    cases h
    exact hf
  | reset image => exact absurd rfl (he image)
  | fbRead x y =>
    cases h
    exact hf

/-- Settles O11: the schedule and the ticks before a drawn Step leave the latch, and so does every event but a Reset. -/
theorem faultLatchIsSticky : Obligations.FaultLatchIsSticky := by
  refine fun s f hf => ⟨fun key rnd es h => ?_, fun t ht hr => ?_⟩
  · rw [step_of_pending h]
    exact handle_step_of_fault (s := { s with pending := es }) hf key rnd
  · cases hp : s.pending with
    | nil =>
      rw [step_of_no_pending hp] at ht
      exact handle_keeps_fault ht nofun hf
    | cons e es =>
      rw [step_of_pending hp] at ht
      exact handle_keeps_fault ht (fun image he => hr image es (by rw [hp, he])) hf

/-! ## The status (R178) -/

/-- Settles O22, from the two ways an instruction ends. -/
theorem statusTableComplete : Obligations.StatusTableComplete := by
  intro i s t h
  rcases exec_cases h with ⟨f, hf, rfl⟩ | ⟨hf, rfl⟩
  · exact ⟨fun hn => by simp [hf] at hn, fun g hg => congrArg Output.fault (Option.some.inj (hf.symm.trans hg))⟩
  · exact ⟨fun _ => ⟨rfl, statusOf_ne_halted i s⟩, fun g hg => by simp [hf] at hg⟩

/-! ## Ticks (R183 to R185) -/

/-- A Tick answers whether ST is above 0 and counts both timers down once (R183). -/
theorem handle_tick (s : State) :
    handle .tick s = .next ((s.afterTicks 1).answer (.sound (decide (s.st.toNat > 0)))) := by
  have hst : (s.st != 0) = decide (s.st.toNat > 0) := by
    rw [Bool.eq_iff_iff, bne_iff_ne, decide_eq_true_iff]
    bv_omega
  rw [← hst]
  rfl

/-- One tick takes one from a timer above 0 and leaves one at 0. -/
theorem countDown_one_toNat (t : Byte) : (countDown 1 t).toNat = if t.toNat > 0 then t.toNat - 1 else 0 := by
  rw [countDown_toNat]
  split <;> omega

/-- Settles O12: the next state is that after one tick. -/
theorem tickCountsDown : Obligations.TickCountsDown := by
  intro s es h
  exact ⟨_, (step_of_pending h).trans (handle_tick _), rfl, countDown_one_toNat _, countDown_one_toNat _, rfl, rfl⟩

theorem stepN_succ_of_next {s t : State} (h : step s = .next t) (n : Nat) : stepN (n + 1) s = stepN n t := by
  simp only [stepN, h]

theorem stepN_one (s : State) : stepN 1 s = step s := by
  rw [stepN]
  cases step s <;> rfl

/-- A schedule that begins with `n` ticks runs them first; the answer then standing is that of the last of them. -/
theorem stepN_ticks (n m : Nat) (es : List Event) : ∀ s : State, s.pending = List.replicate n .tick ++ es →
    ∃ o, stepN (n + m) s = stepN m { s.afterTicks n with pending := es, output := o } := by
  induction n with
  | zero =>
    rintro s rfl
    exact ⟨s.output, by rw [Nat.zero_add, State.afterTicks_zero]⟩
  | succ n ih =>
    intro s h
    rw [Nat.succ_add, stepN_succ_of_next ((step_of_pending h).trans (handle_tick _)), Nat.add_comm n 1,
      ← State.afterTicks_afterTicks]
    exact ih _ rfl

/-- Settles O13: the last tick finds the timers counted down by those before it. -/
theorem soundForExactlyStTicks : Obligations.SoundForExactlyStTicks := by
  intro n s es h
  rw [List.replicate_succ', List.append_assoc] at h
  obtain ⟨o, ho⟩ := stepN_ticks n 1 _ s h
  have hall : (s.afterTicks n).afterTicks 1 = s.afterTicks (n + 1) := s.afterTicks_afterTicks n 1
  have hst : (countDown n s.st).toNat > 0 ↔ n < s.st.toNat := by rw [countDown_toNat]; omega
  refine ⟨_, ho.trans ((stepN_one _).trans ((step_of_pending rfl).trans (handle_tick _))), ?_, ?_, ?_, ?_, rfl⟩
  · exact congrArg Output.sound (decide_eq_decide.2 hst)
  · exact congrArg State.sounds hall
  · exact (congrArg (·.st.toNat) hall).trans (countDown_toNat _ _)
  · exact (congrArg (·.dt.toNat) hall).trans (countDown_toNat _ _)

/-! ## The end of a run (R190) -/

/-- A word that is a jump to `pc` decodes to the jump whose target is `pc`. -/
theorem decodeWord_jump_to {pc : Word} (h : pc.toNat ≤ 4095) :
    ∃ nnn, decodeWord (0x1000 ||| pc) = .jp nnn ∧ absolute nnn = pc := by
  have hnnn : (pc.setWidth 12 : Addr).toNat = pc.toNat := by rw [BitVec.toNat_setWidth, Nat.mod_eq_of_lt (by omega)]
  have hword : 0x1000 ||| pc = encode (.jp (pc.setWidth 12)) := by
    apply BitVec.eq_of_toNat_eq
    rw [BitVec.toNat_or, encode, formNnn_toNat, hnnn]
    exact (Nat.two_pow_add_eq_or_of_lt (i := 12) (by omega) 1).symm
  exact ⟨_, by rw [hword, decodeWord_encode rfl], BitVec.eq_of_toNat_eq (by rw [absolute_toNat, hnnn])⟩

/-- A jump to PC itself changes the answer alone. -/
theorem exec_jp_self {nnn : Addr} {s : State} (h : absolute nnn = s.pc) :
    exec (.jp nnn) s = .next { s with output := .status .continue } := by
  have hjp : exec (.jp nnn) s = .next { s with pc := absolute nnn, output := .status .continue } := rfl
  rw [hjp, h]

/-- Settles O26: the instruction fetched is the jump to PC itself. -/
theorem endOfRunIsStable : Obligations.EndOfRunIsStable := by
  rintro s key rnd es ⟨hf, hw⟩ h
  rcases s.mem.fetch_cases s.pc.toNat with ⟨-, e⟩ | ⟨hpc, e⟩ <;> rw [hw] at e
  · cases e
  · obtain ⟨nnn, hjp, habs⟩ := decodeWord_jump_to (by omega : s.pc.toNat ≤ 4095)
    have hdecode : decode [s.mem.byteAt s.pc.toNat, s.mem.byteAt (s.pc.toNat + 1)] = .ok (.jp nnn, []) := by
      rw [decode, ← Except.ok.inj e, hjp]
    rw [step_of_pending h, handle_step_of_decode (s := { s with pending := es }) hf hpc hdecode]
    exact exec_jp_self habs

/-! ## The schedule the model draws (R6, R185)

The answer of the last drawn tick still stands when the Step begins; a Step does not read it. -/

/-- Writing a run of registers does not read the answer. -/
theorem State.setRegs_answer (o : Output) (bs : List Byte) :
    ∀ (s : State) (k : Nat), (s.answer o).setRegs k bs = (s.setRegs k bs).answer o := by
  induction bs with
  | nil => exact fun _ _ => rfl
  | cons b bs ih => exact fun s k => ih (s.setReg (BitVec.ofNat 4 k) b) (k + 1)

/-- Fx0A's effect does not read the answer. -/
theorem State.takeKey_answer (s : State) (x : Nibble) (o : Output) : (s.answer o).takeKey x = (s.takeKey x).answer o := by
  simp only [State.takeKey, State.answer_key]
  cases s.key <;> rfl

/-- What an instruction leaves does not depend on the answer that stood before it. -/
theorem completedOf_answer (i : Instr) (s : State) (o : Output) : completedOf i (s.answer o) = (completedOf i s).answer o := by
  cases i with
  | ldVxMem x => simp only [completedOf, effectOf, State.answer_mem, State.answer_i, State.setRegs_answer]; rfl
  | ldVxK x => simp only [completedOf, effectOf, State.takeKey_answer]; rfl
  | _ => rfl

/-- An instruction does not read the answer that stood before it. -/
theorem exec_answer (i : Instr) (s : State) (o : Output) : exec i (s.answer o) = exec i s := by
  have hfault : faultOf i (s.answer o) = faultOf i s := rfl
  have hstatus : statusOf i (s.answer o) = statusOf i s := rfl
  rw [exec_eq_finish, exec_eq_finish, hfault, hstatus, completedOf_answer]
  cases faultOf i s <;> rfl

/-- A Step does not read the answer that stood before it. -/
theorem handle_step_answer (key : Option Nibble) (rnd : Byte) (s : State) (o : Output) :
    handle (.step key rnd) (s.answer o) = handle (.step key rnd) s := by
  cases hf : s.fault with
  | some f => rw [handle_step_of_fault hf, handle_step_of_fault (s := s.answer o) hf]; rfl
  | none =>
    by_cases hpc : s.pc.toNat + 1 > 4095
    · rw [handle_step_of_pc_gt hf hpc, handle_step_of_pc_gt (s := s.answer o) hf hpc]; rfl
    · rw [handle_step_of_decode hf (not_lt.1 hpc) rfl, handle_step_of_decode (s := s.answer o) hf (not_lt.1 hpc) rfl]
      exact exec_answer _ { s with key := key, rnd := rnd } o

/-- An instruction adds nothing to the record of the ticks' answers. -/
theorem sounds_of_exec {i : Instr} {s t : State} (h : exec i s = .next t) : t.sounds = s.sounds := by
  rcases exec_cases h with ⟨f, -, rfl⟩ | ⟨-, rfl⟩
  · rfl
  · cases i <;> rfl

/-- A Step adds nothing to the record of the ticks' answers. -/
theorem sounds_of_handle_step {key : Option Nibble} {rnd : Byte} {s t : State} (h : handle (.step key rnd) s = .next t) :
    t.sounds = s.sounds := by
  change stepEvent key rnd s = .next t at h
  rcases stepEvent_cases key rnd s with ⟨f, -, e⟩ | ⟨-, -, e⟩ | ⟨-, -, e⟩ <;> rw [e] at h
  · cases h
    rfl
  · cases h
    rfl
  · exact sounds_of_exec (s := { s with key := key, rnd := rnd }) h

/-- A schedule of `n` ticks and a Step is that Step from the state after the ticks: it replaces the last tick's answer. -/
theorem stepN_ticks_step (n : Nat) (key : Option Nibble) (rnd : Byte) {s : State}
    (h : s.pending = List.replicate n .tick ++ [.step key rnd]) :
    stepN (n + 1) s = handle (.step key rnd) { s.afterTicks n with pending := [] } := by
  obtain ⟨o, ho⟩ := stepN_ticks n 1 [.step key rnd] s h
  rw [ho, stepN_one, step_of_pending rfl]
  exact handle_step_answer key rnd { s.afterTicks n with pending := [] } o

/-- Settles O56: the drawn inputs and the drawn number of ticks are those that the driver fixes. -/
theorem drawnStepIsItsEvents : Obligations.DrawnStepIsItsEvents := by
  intro s h
  refine ⟨Config.key s.draws, Config.rnd s.draws, Config.ticks s.draws, ?_, fun t ht => ?_⟩
  · rw [step_of_no_pending h, stepN_ticks_step _ _ _ rfl, ← h]
    rfl
  · rw [step_of_no_pending h] at ht
    exact sounds_of_handle_step ht

end Sys2Proof.Machine
end

section
/-! PROOFS of the statements of 70_reset_and_hazards.md about the Reset event: what it loads (R200, R51), and when it is
refused (R201). -/

namespace Sys2Proof.Machine

open Sys2Proof

/-! ## What a Reset answers (R200, R201) -/

/-- The machine's own Reset has the machine's font and fill. -/
theorem handle_reset (image : List Byte) (s : State) :
    handle (.reset image) s = resetEvent Config.font Config.memFill image s := by
  rw [handle]

/-- An image that fits is loaded. -/
theorem resetEvent_of_fits (font : Vector Byte 80) (fill : Byte) {image : List Byte} (h : image.length ≤ 3584) (s : State) :
    resetEvent font fill image s = .next (s.reload font fill image) := by
  have hfit : ¬image.length + Config.progBase > Config.memSize := by rw [Config.progBase, Config.memSize]; omega
  rw [resetEvent, if_neg hfit]

/-- A Reset is refused exactly when the image does not fit. -/
theorem resetEvent_refused_iff (font : Vector Byte 80) (fill : Byte) (image : List Byte) (s : State) :
    resetEvent font fill image s = .refused .imageTooLarge ↔ image.length + 0x200 > 4096 := by
  constructor
  · intro h
    by_contra hfit
    rw [resetEvent_of_fits font fill (by omega) s] at h
    cases h
  · exact fun h => if_pos h

/-- Settles O16: the next event is the Reset. -/
theorem resetRefusesLargeImage : Obligations.ResetRefusesLargeImage := by
  intro s image es h
  rw [step_of_pending h, handle_reset]
  exact (resetEvent_refused_iff _ _ image _).symm

/-! ## The memory map after a Reset (R51) -/

/-- The bytes from 0x200 on are the image's. -/
theorem resetByte_image (font : Vector Byte 80) (fill : Byte) {image : List Byte} {j : Nat} (h : j < image.length) :
    resetByte font fill image (0x200 + j) = image[j] := by
  rw [resetByte, dif_neg (by omega), Config.progBase, if_pos (Nat.le_add_right _ _), Nat.add_sub_cancel_left]
  exact List.getD_eq_getElem _ _ h

/-- A byte above the font and outside the image is the fill. -/
theorem resetByte_fill (font : Vector Byte 80) (fill : Byte) {image : List Byte} {a : Nat} (hfont : 0x050 ≤ a)
    (himage : a < 0x200 ∨ 0x200 + image.length ≤ a) : resetByte font fill image a = fill := by
  rw [resetByte, dif_neg (by omega), Config.progBase]
  split
  · exact List.getD_eq_default _ _ (by omega)
  · rfl

/-- After a Reset the byte at every address of memory is the map's. -/
theorem State.reload_byteAt (s : State) (font : Vector Byte 80) (fill : Byte) (image : List Byte) {a : Nat} (h : a < 4096) :
    (s.reload font fill image).mem.byteAt a = resetByte font fill image a := by
  rw [State.reload_mem]
  exact Memory.byteAt_ofFn _ h

/-- A Reset leaves the registers of the state right after reset. -/
theorem State.reload_reg (s : State) (font : Vector Byte 80) (fill : Byte) (image : List Byte) (r : Nibble) :
    (s.reload font fill image).reg r = State.reset.reg r := by
  simp only [State.reg, State.reload_v]

/-- Settles O15: memory is the map of R51, and every other component is that of the state right after reset. -/
theorem resetLoadsImage : Obligations.ResetLoadsImage := by
  obtain ⟨hreg, hi, hpc, hsp, -, hdt, hst, hfb, hfault, -⟩ := resetStateValues
  refine ⟨fun font fill image s h => ?_, fun s image es h _ => (step_of_pending h).trans (handle_reset _ _)⟩
  obtain ⟨hwf, -⟩ := s.reload_inv font fill image
  have hreg' (r : Nibble) : (s.reload font fill image).reg r = 0 := (s.reload_reg _ _ _ r).trans (hreg r)
  have hinputs : Unchanged s (s.reload font fill image) .inputs := ⟨rfl, rfl, rfl, rfl, rfl⟩
  refine ⟨_, resetEvent_of_fits font fill h s, fun j hj => ?_, fun j hj => ?_, fun a hfont ha => ?_, fun a himage ha => ?_,
    hwf, hreg', hi, hpc, hsp, hdt, hst, hfb, hfault, rfl, hinputs⟩
  · rw [s.reload_byteAt _ _ _ (by omega), resetByte_font _ _ _ hj]
  · rw [s.reload_byteAt _ _ _ (by omega), resetByte_image _ _ hj]
  · rw [s.reload_byteAt _ _ _ (by omega), resetByte_fill _ _ hfont (.inl ha)]
  · rw [s.reload_byteAt _ _ _ ha, resetByte_fill _ _ (by omega) (.inr himage)]

end Sys2Proof.Machine
end
